-- ==== Sys2Proof/Word.lean ====
section
/-! DEFINITION. The bit widths of the machine (spec 00_scope.md R6, R9, R11): bytes, 16-bit words, 12-bit addresses and the 4-bit
fields of an opcode. All values are unsigned (R10). -/

namespace Sys2Proof

/-- A memory cell, a variable register or a timer: 8 bits (R6 CELL_WIDTH, V_WIDTH, TIMER_WIDTH). -/
abbrev Byte := BitVec 8

/-- An opcode, pc, I or a stack slot: 16 bits (R6 OPCODE_WIDTH, PC_WIDTH, I_WIDTH, STACK_SLOT_WIDTH). -/
abbrev Word := BitVec 16

/-- The 12-bit address field NNN of an opcode (R11, R51). -/
abbrev Addr12 := BitVec 12

/-- A register selector, the 4-bit field X or Y of an opcode (R11, R51). -/
abbrev Reg := BitVec 4

/-- The 4-bit row count N of DXYN (R11, R51). -/
abbrev Rows := BitVec 4

end Sys2Proof
end

