-- ==== Sys2Proof/Config.lean ====
section
/-! DEFINITION. The implementation parameters of spec 00_scope.md R6, R7 and R24: the fixed sizes, the default of the parameter FONT,
and the free random bytes. The third open parameter, END_OF_RUN, is an argument of `runUntil` in Sys2Proof/Safety.lean. -/

namespace Sys2Proof.Config

/-- MEM_SIZE (R6): addresses are 0x000 to 0xFFF. -/
abbrev memSize : Nat := 4096

/-- PROG_START (R6): where Load puts a program and where pc starts. -/
abbrev progStart : Nat := 0x200

/-- MAX_PROG (R6): the longest program in bytes, 4096 - 512. -/
abbrev maxProg : Nat := 3584

/-- FONT_SIZE (R6): 16 glyphs of 5 bytes at FONT_BASE 0x000. -/
abbrev fontSize : Nat := 80

/-- GLYPH_STRIDE (R6): the bytes of one glyph. -/
abbrev glyphStride : Nat := 5

/-- INDEX_FLAG_LIMIT (R6): FX1E sets VF when I exceeds it. It is also the last address (R33). -/
abbrev indexFlagLimit : Nat := 0xFFF

/-- The default of the parameter FONT: the conventional CHIP-8 font of R24.
PRESUMED (log 4), unsafe: the spec takes these bytes from general knowledge, so a claim about a drawn glyph rests on them. The font a
machine uses is the field `font` of its memory; this table is only the value `State.reset` gives that field. -/
def defaultFont : Vector Byte fontSize := #v[
  0xF0, 0x90, 0x90, 0x90, 0xF0,
  0x20, 0x60, 0x20, 0x20, 0x70,
  0xF0, 0x10, 0xF0, 0x80, 0xF0,
  0xF0, 0x10, 0xF0, 0x10, 0xF0,
  0x90, 0x90, 0xF0, 0x10, 0x10,
  0xF0, 0x80, 0xF0, 0x10, 0xF0,
  0xF0, 0x80, 0xF0, 0x90, 0xF0,
  0xF0, 0x10, 0x20, 0x40, 0x40,
  0xF0, 0x90, 0xF0, 0x90, 0xF0,
  0xF0, 0x90, 0xF0, 0x10, 0xF0,
  0xF0, 0x90, 0xF0, 0x90, 0x90,
  0xE0, 0x90, 0xE0, 0x90, 0xE0,
  0xF0, 0x80, 0x80, 0x80, 0xF0,
  0xE0, 0x90, 0x90, 0x90, 0xE0,
  0xF0, 0x80, 0xF0, 0x80, 0xF0,
  0xF0, 0x80, 0xF0, 0x80, 0x80]

/-- `RandomByte()` (R7, R88, R29): the n-th byte the random source gives. A free value with no body: nothing is known of any of these
bytes. Safe (log 5): a claim about CXNN holds for every byte. -/
opaque randomByte : Nat → Byte

end Sys2Proof.Config
end

