-- ==== Sys2Proof/Syntax.lean ====
section
/-! DEFINITION. The 34 instructions of spec 30_encoding.md R52, one constructor for each row of the opcode table, named after the
decoder's names in R53. Operand ranges (R51) are carried by the operand types, so every term is a well-formed instruction. -/

namespace Sys2Proof

/-- One constructor for each row of R52, in the table's order. The shifts carry the Y field, which is encoded but not read (R85, R87). -/
inductive Instr
  /-- 00E0, clear the framebuffer (R62). -/
  | cls
  /-- 00EE, return from subroutine (R67). -/
  | ret
  /-- 1NNN, jump (R68). -/
  | jp (nnn : Addr12)
  /-- 2NNN, call subroutine (R69). -/
  | call (nnn : Addr12)
  /-- 3XNN, skip if VX = NN (R70). -/
  | seImm (x : Reg) (nn : Byte)
  /-- 4XNN, skip if VX is not NN (R71). -/
  | sneImm (x : Reg) (nn : Byte)
  /-- 5XY0, skip if VX = VY (R72). -/
  | seReg (x y : Reg)
  /-- 6XNN, load immediate (R77). -/
  | ldImm (x : Reg) (nn : Byte)
  /-- 7XNN, add immediate without a flag (R78). -/
  | addImm (x : Reg) (nn : Byte)
  /-- 8XY0, copy VY to VX (R79). -/
  | ldReg (x y : Reg)
  /-- 8XY1, bitwise OR (R80). -/
  | orReg (x y : Reg)
  /-- 8XY2, bitwise AND (R81). -/
  | andReg (x y : Reg)
  /-- 8XY3, bitwise XOR (R82). -/
  | xorReg (x y : Reg)
  /-- 8XY4, add with carry to VF (R83). -/
  | addReg (x y : Reg)
  /-- 8XY5, VX - VY with VF = not borrow (R84). -/
  | subReg (x y : Reg)
  /-- 8XY6, shift VX right, VF = old bit 0 (R85). -/
  | shrReg (x y : Reg)
  /-- 8XY7, VY - VX with VF = not borrow (R86). -/
  | subnReg (x y : Reg)
  /-- 8XYE, shift VX left, VF = old bit 7 (R87). -/
  | shlReg (x y : Reg)
  /-- 9XY0, skip if VX is not VY (R73). -/
  | sneReg (x y : Reg)
  /-- ANNN, load I (R90). -/
  | ldI (nnn : Addr12)
  /-- BNNN, jump to NNN + V0 (R74). -/
  | jpV0 (nnn : Addr12)
  /-- CXNN, random byte AND NN (R88). -/
  | rnd (x : Reg) (nn : Byte)
  /-- DXYN, draw an N-row sprite (R63). -/
  | drw (x y : Reg) (n : Rows)
  /-- EX9E, skip if key VX is pressed (R97). -/
  | skp (x : Reg)
  /-- EXA1, skip if key VX is not pressed (R98). -/
  | sknp (x : Reg)
  /-- FX07, read the delay timer (R100). -/
  | ldVDt (x : Reg)
  /-- FX0A, wait for a key (R99). -/
  | ldVK (x : Reg)
  /-- FX15, set the delay timer (R101). -/
  | ldDt (x : Reg)
  /-- FX18, set the sound timer (R102). -/
  | ldSt (x : Reg)
  /-- FX1E, add VX to I (R91). -/
  | addI (x : Reg)
  /-- FX29, point I at the glyph of VX (R92). -/
  | ldF (x : Reg)
  /-- FX33, BCD encoder (R93). -/
  | ldB (x : Reg)
  /-- FX55, store V0..VX (R94). -/
  | ldStore (x : Reg)
  /-- FX65, load V0..VX (R95). -/
  | ldLoad (x : Reg)
  deriving DecidableEq, Repr

end Sys2Proof
end

