-- ==== Sys2Proof/WellFormed.lean ====
section
/-! DEFINITION. What is well formed: a word of the opcode table (spec 30_encoding.md R52), and a program image (70_reset_and_hazards.md
R120). An `Instr` is well formed by its types: each operand has the width of its field (R51), so no ill-formed term of it exists. -/

namespace Sys2Proof

/-- The six formats of R50. -/
inductive Format
  | z | a | r | p | d | f
  deriving DecidableEq, Repr

/-- One row of the opcode table of R52: the words with `op AND mask = pattern`. -/
structure OpcodeRow where
  mnemonic : String
  mask     : Word
  pattern  : Word
  format   : Format
  deriving DecidableEq, Repr

/-- A row selects a word when `op AND mask = match` (R52). -/
def OpcodeRow.selects (row : OpcodeRow) (op : Word) : Bool :=
  op &&& row.mask == row.pattern

/-- Rows 1 to 9 of R52. -/
def opcodeRows1 : List OpcodeRow := [
  ⟨"00E0", 0xFFFF, 0x00E0, .z⟩,
  ⟨"00EE", 0xFFFF, 0x00EE, .z⟩,
  ⟨"1NNN", 0xF000, 0x1000, .a⟩,
  ⟨"2NNN", 0xF000, 0x2000, .a⟩,
  ⟨"3XNN", 0xF000, 0x3000, .r⟩,
  ⟨"4XNN", 0xF000, 0x4000, .r⟩,
  ⟨"5XY0", 0xF00F, 0x5000, .p⟩,
  ⟨"6XNN", 0xF000, 0x6000, .r⟩,
  ⟨"7XNN", 0xF000, 0x7000, .r⟩]

/-- Rows 10 to 18 of R52. -/
def opcodeRows2 : List OpcodeRow := [
  ⟨"8XY0", 0xF00F, 0x8000, .p⟩,
  ⟨"8XY1", 0xF00F, 0x8001, .p⟩,
  ⟨"8XY2", 0xF00F, 0x8002, .p⟩,
  ⟨"8XY3", 0xF00F, 0x8003, .p⟩,
  ⟨"8XY4", 0xF00F, 0x8004, .p⟩,
  ⟨"8XY5", 0xF00F, 0x8005, .p⟩,
  ⟨"8XY6", 0xF00F, 0x8006, .p⟩,
  ⟨"8XY7", 0xF00F, 0x8007, .p⟩,
  ⟨"8XYE", 0xF00F, 0x800E, .p⟩]

/-- Rows 19 to 25 of R52. -/
def opcodeRows3 : List OpcodeRow := [
  ⟨"9XY0", 0xF00F, 0x9000, .p⟩,
  ⟨"ANNN", 0xF000, 0xA000, .a⟩,
  ⟨"BNNN", 0xF000, 0xB000, .a⟩,
  ⟨"CXNN", 0xF000, 0xC000, .r⟩,
  ⟨"DXYN", 0xF000, 0xD000, .d⟩,
  ⟨"EX9E", 0xF0FF, 0xE09E, .f⟩,
  ⟨"EXA1", 0xF0FF, 0xE0A1, .f⟩]

/-- Rows 26 to 34 of R52. -/
def opcodeRows4 : List OpcodeRow := [
  ⟨"FX07", 0xF0FF, 0xF007, .f⟩,
  ⟨"FX0A", 0xF0FF, 0xF00A, .f⟩,
  ⟨"FX15", 0xF0FF, 0xF015, .f⟩,
  ⟨"FX18", 0xF0FF, 0xF018, .f⟩,
  ⟨"FX1E", 0xF0FF, 0xF01E, .f⟩,
  ⟨"FX29", 0xF0FF, 0xF029, .f⟩,
  ⟨"FX33", 0xF0FF, 0xF033, .f⟩,
  ⟨"FX55", 0xF0FF, 0xF055, .f⟩,
  ⟨"FX65", 0xF0FF, 0xF065, .f⟩]

/-- The opcode table of R52: 34 rows, in its order. -/
def opcodeTable : List OpcodeRow :=
  opcodeRows1 ++ opcodeRows2 ++ opcodeRows3 ++ opcodeRows4

/-- A word is well formed when a row of the table selects it; every other word is undefined (R54). -/
def wordWellFormed (op : Word) : Bool :=
  opcodeTable.any (·.selects op)

/-- A program image is well formed when it fits in 0x200..0xFFF (R120: at most 3584 bytes). -/
def imageWellFormed (bytes : List Byte) : Bool :=
  decide (bytes.length ≤ Config.maxProg)

/-- The pattern by which the spec names the instruction (R52, R56). -/
def Instr.mnemonic : Instr → String
  | .cls => "00E0"
  | .ret => "00EE"
  | .jp _ => "1NNN"
  | .call _ => "2NNN"
  | .seImm _ _ => "3XNN"
  | .sneImm _ _ => "4XNN"
  | .seReg _ _ => "5XY0"
  | .ldImm _ _ => "6XNN"
  | .addImm _ _ => "7XNN"
  | .ldReg _ _ => "8XY0"
  | .orReg _ _ => "8XY1"
  | .andReg _ _ => "8XY2"
  | .xorReg _ _ => "8XY3"
  | .addReg _ _ => "8XY4"
  | .subReg _ _ => "8XY5"
  | .shrReg _ _ => "8XY6"
  | .subnReg _ _ => "8XY7"
  | .shlReg _ _ => "8XYE"
  | .sneReg _ _ => "9XY0"
  | .ldI _ => "ANNN"
  | .jpV0 _ => "BNNN"
  | .rnd _ _ => "CXNN"
  | .drw _ _ _ => "DXYN"
  | .skp _ => "EX9E"
  | .sknp _ => "EXA1"
  | .ldVDt _ => "FX07"
  | .ldVK _ => "FX0A"
  | .ldDt _ => "FX15"
  | .ldSt _ => "FX18"
  | .addI _ => "FX1E"
  | .ldF _ => "FX29"
  | .ldB _ => "FX33"
  | .ldStore _ => "FX55"
  | .ldLoad _ => "FX65"

end Sys2Proof
end

