-- ==== Sys2Proof/Decode.lean ====
section
/-! DEFINITION. The decoder of spec 30_encoding.md R53, total on all words, which rejects the undefined words of R54 by name; and, after
it, the encoder, written from the formats of R50 and the table of R52. -/

namespace Sys2Proof

/-- Why bytes are no instruction. The six classes are the rows of R54; `truncated` is the model's name for fewer than two bytes.
DESIGN CHOICE (log 9), safe: the spec has one result `Undefined`; the name only says which row of R54 the word falls in. -/
inductive Reject
  | undefinedClass0 | undefinedClass5 | undefinedClass8 | undefinedClass9 | undefinedClassE | undefinedClassF
  | truncated
  deriving DecidableEq, Repr

/-- What the decoder answers: a row of R52 with its operands, or `Undefined` (R53). -/
inductive Decoded
  | instr (i : Instr)
  | undefined (why : Reject)
  deriving DecidableEq, Repr

/-! The fields of an opcode (R11). -/

/-- C = op[15:12], the class. -/
def classOf (op : Word) : BitVec 4 := op.extractLsb' 12 4
/-- X = op[11:8]. -/
def fieldX (op : Word) : Reg := op.extractLsb' 8 4
/-- Y = op[7:4]. -/
def fieldY (op : Word) : Reg := op.extractLsb' 4 4
/-- N = op[3:0]. -/
def fieldN (op : Word) : Rows := op.extractLsb' 0 4
/-- NN = op[7:0]. -/
def fieldNN (op : Word) : Byte := op.extractLsb' 0 8
/-- NNN = op[11:0]. -/
def fieldNNN (op : Word) : Addr12 := op.extractLsb' 0 12

/-- The second-level dispatch of class 8 on op[3:0] (R53). -/
def decodeAlu (x y : Reg) (function : Nat) : Decoded :=
  match function with
  | 0x0 => .instr (.ldReg x y)
  | 0x1 => .instr (.orReg x y)
  | 0x2 => .instr (.andReg x y)
  | 0x3 => .instr (.xorReg x y)
  | 0x4 => .instr (.addReg x y)
  | 0x5 => .instr (.subReg x y)
  | 0x6 => .instr (.shrReg x y)
  | 0x7 => .instr (.subnReg x y)
  | 0xE => .instr (.shlReg x y)
  | _   => .undefined .undefinedClass8

/-- The second-level dispatch of class E on op[7:0] (R53). -/
def decodeKey (x : Reg) (function : Nat) : Decoded :=
  match function with
  | 0x9E => .instr (.skp x)
  | 0xA1 => .instr (.sknp x)
  | _    => .undefined .undefinedClassE

/-- The second-level dispatch of class F on op[7:0] (R53). -/
def decodeMisc (x : Reg) (function : Nat) : Decoded :=
  match function with
  | 0x07 => .instr (.ldVDt x)
  | 0x0A => .instr (.ldVK x)
  | 0x15 => .instr (.ldDt x)
  | 0x18 => .instr (.ldSt x)
  | 0x1E => .instr (.addI x)
  | 0x29 => .instr (.ldF x)
  | 0x33 => .instr (.ldB x)
  | 0x55 => .instr (.ldStore x)
  | 0x65 => .instr (.ldLoad x)
  | _    => .undefined .undefinedClassF

/-- `Decode(op)` of R53: dispatch on the class, then on the low nibble or the low byte. The last arm is class 0xF, the one class left. -/
def decode (op : Word) : Decoded :=
  match (classOf op).toNat with
  | 0x0 => if op = 0x00E0 then .instr .cls else if op = 0x00EE then .instr .ret else .undefined .undefinedClass0
  | 0x1 => .instr (.jp (fieldNNN op))
  | 0x2 => .instr (.call (fieldNNN op))
  | 0x3 => .instr (.seImm (fieldX op) (fieldNN op))
  | 0x4 => .instr (.sneImm (fieldX op) (fieldNN op))
  | 0x5 => if fieldN op = 0 then .instr (.seReg (fieldX op) (fieldY op)) else .undefined .undefinedClass5
  | 0x6 => .instr (.ldImm (fieldX op) (fieldNN op))
  | 0x7 => .instr (.addImm (fieldX op) (fieldNN op))
  | 0x8 => decodeAlu (fieldX op) (fieldY op) (fieldN op).toNat
  | 0x9 => if fieldN op = 0 then .instr (.sneReg (fieldX op) (fieldY op)) else .undefined .undefinedClass9
  | 0xA => .instr (.ldI (fieldNNN op))
  | 0xB => .instr (.jpV0 (fieldNNN op))
  | 0xC => .instr (.rnd (fieldX op) (fieldNN op))
  | 0xD => .instr (.drw (fieldX op) (fieldY op) (fieldN op))
  | 0xE => decodeKey (fieldX op) (fieldNN op).toNat
  | _   => decodeMisc (fieldX op) (fieldNN op).toNat

/-! Bytes of a word: big-endian (R39, R49). -/

/-- `mem[pc] ++ mem[pc+1]`: the first byte is op[15:8] (R49). -/
def wordOfBytes (high low : Byte) : Word := high ++ low
/-- op[15:8], the byte at the lower address. -/
def highByte (op : Word) : Byte := op.extractLsb' 8 8
/-- op[7:0], the byte at the higher address. -/
def lowByte (op : Word) : Byte := op.extractLsb' 0 8

/-- Decode the first instruction of a list of bytes and give back the bytes after it. Every instruction is two bytes long (R48). -/
def decodeBytes : List Byte → Decoded × List Byte
  | high :: low :: rest => (decode (wordOfBytes high low), rest)
  | short => (.undefined .truncated, short)

/-! The encoder. -/

/-- Format A: class, NNN (R50). -/
def encodeA (c : BitVec 4) (nnn : Addr12) : Word := c ++ nnn
/-- Format R: class, X, NN (R50). -/
def encodeR (c : BitVec 4) (x : Reg) (nn : Byte) : Word := c ++ x ++ nn
/-- Formats P and D: class, X, Y and a nibble that is the function or N (R50). -/
def encodeP (c : BitVec 4) (x y : Reg) (n : BitVec 4) : Word := c ++ x ++ y ++ n
/-- Format F: class, X and a function byte (R50). -/
def encodeF (c : BitVec 4) (x : Reg) (function : Byte) : Word := c ++ x ++ function

/-- The word of an instruction, from the formats of R50 and the table of R52. -/
def encode : Instr → Word
  | .cls => 0x00E0
  | .ret => 0x00EE
  | .jp nnn => encodeA 0x1 nnn
  | .call nnn => encodeA 0x2 nnn
  | .seImm x nn => encodeR 0x3 x nn
  | .sneImm x nn => encodeR 0x4 x nn
  | .seReg x y => encodeP 0x5 x y 0x0
  | .ldImm x nn => encodeR 0x6 x nn
  | .addImm x nn => encodeR 0x7 x nn
  | .ldReg x y => encodeP 0x8 x y 0x0
  | .orReg x y => encodeP 0x8 x y 0x1
  | .andReg x y => encodeP 0x8 x y 0x2
  | .xorReg x y => encodeP 0x8 x y 0x3
  | .addReg x y => encodeP 0x8 x y 0x4
  | .subReg x y => encodeP 0x8 x y 0x5
  | .shrReg x y => encodeP 0x8 x y 0x6
  | .subnReg x y => encodeP 0x8 x y 0x7
  | .shlReg x y => encodeP 0x8 x y 0xE
  | .sneReg x y => encodeP 0x9 x y 0x0
  | .ldI nnn => encodeA 0xA nnn
  | .jpV0 nnn => encodeA 0xB nnn
  | .rnd x nn => encodeR 0xC x nn
  | .drw x y n => encodeP 0xD x y n
  | .skp x => encodeF 0xE x 0x9E
  | .sknp x => encodeF 0xE x 0xA1
  | .ldVDt x => encodeF 0xF x 0x07
  | .ldVK x => encodeF 0xF x 0x0A
  | .ldDt x => encodeF 0xF x 0x15
  | .ldSt x => encodeF 0xF x 0x18
  | .addI x => encodeF 0xF x 0x1E
  | .ldF x => encodeF 0xF x 0x29
  | .ldB x => encodeF 0xF x 0x33
  | .ldStore x => encodeF 0xF x 0x55
  | .ldLoad x => encodeF 0xF x 0x65

/-- The two bytes of an instruction as memory holds them, the high byte at the lower address (R39). -/
def encodeBytes (i : Instr) : List Byte := [highByte (encode i), lowByte (encode i)]

/-! The host's word, numbered as spec/opcode_table.json numbers it. -/

/-- The 16-bit word of the host's `w`, whose bits above `nbits` are zero. -/
def tableWord (nbits w : Nat) : Word := BitVec.ofNat 16 (w % 2 ^ nbits)

/-- What the decoder reads from the host's word, laid out in bytes as memory holds it. -/
def decodeTableWord (nbits w : Nat) : Option Instr :=
  match (decodeBytes [highByte (tableWord nbits w), lowByte (tableWord nbits w)]).1 with
  | .instr i => some i
  | .undefined _ => none

end Sys2Proof
end

