-- ==== Sys2Proof/Machine/State.lean ====
section
/-! DEFINITION. The machine state of spec 10_state.md as plain data, its value after Reset (70_reset_and_hazards.md R119), and the ways a
step can stop. -/

namespace Sys2Proof.Machine

/-- The four fatal faults of 60_exceptions.md R103. -/
inductive FaultKind
  | stackOverflow | stackUnderflow | addressFault | keyIndexFault
  deriving DecidableEq, Repr

/-- The six error kinds of R103. -/
inductive ErrorKind
  | loadError | decodeError | fatal (kind : FaultKind)
  deriving DecidableEq, Repr

/-- The record `(kind, info, pc)` of the fault register (R28). `info` is an unbounded number, as addresses are (R36). -/
structure FaultRecord where
  kind : FaultKind
  info : Nat
  pc   : Word
  deriving DecidableEq, Repr

/-- The outcome of a Step (R104). -/
inductive Report
  | ok
  | decodeError (op pc : Word)
  | fault (kind : FaultKind) (info : Nat)
  | halted
  deriving DecidableEq, Repr

/-- The memory of 20_memory.md: the parameter FONT (R7, R24), which no step writes, and the cells that differ from what Reset leaves, in
the canonical form of `Memory.wf` (Sys2Proof/Machine/Ops.lean). An address that is not listed reads as `Memory.unlisted` says. -/
structure Memory where
  font  : Vector Byte Config.fontSize
  cells : List Host.Cell
  deriving DecidableEq, Repr

/-- The framebuffer (R25): 32 rows of 64 pixels, one bit a pixel (C14). Bit x of row y is the pixel fb[x, y], whose storage index in the
spec is x + 64*y. DESIGN CHOICE (log 7), safe: which rows and bits hold the pixels is not observable. -/
abbrev Framebuffer := Vector (BitVec 64) 32

/-- Everything the spec gives the machine (10_state.md, summary table), then the model's own fields. -/
@[ext]
structure State where
  /-- V0..VF (R15, R16). -/
  v : Vector Byte 16
  /-- The program counter (R17). -/
  pc : Word
  /-- The index register I (R18). -/
  i : Word
  /-- The call stack's 16 slots (R19). -/
  stack : Vector Word 16
  /-- The stack pointer, the number of occupied slots, 0 to 16 (R20). -/
  sp : Fin 17
  /-- The delay timer DT (R21). -/
  dt : Byte
  /-- The sound timer ST (R22). -/
  st : Byte
  /-- The memory (R23) with the parameter FONT (R24). -/
  mem : Memory
  /-- The framebuffer (R25). -/
  fb : Framebuffer
  /-- The keypad, true meaning pressed (R26). -/
  key : Vector Bool 16
  /-- The redraw flag (R27). -/
  redraw : Bool
  /-- The fault register (R28). -/
  fault : Option FaultRecord
  /-- Whether a Reset or a Load has run since power-on (R121; log 3). -/
  ready : Bool
  /-- The model's own: the outcome the last Step gave the host (R104; log 2). -/
  report : Option Report
  /-- The model's own: how many random bytes have been drawn (R88; log 5). -/
  draws : Nat
  deriving DecidableEq, Repr

/-- No step ends in `Host.Outcome.fault`: the spec's fatal faults are next states with the fault register set (R105), and its decode
errors are completed steps (R55). So this type has no constructor. DESIGN CHOICE (log 1), safe: nothing of the fault is lost. -/
inductive Fault
  deriving DecidableEq, Repr

/-- Why a step is refused. -/
inductive Refusal
  /-- Answered by `exec` for an instruction that has no meaning yet. Safe: nothing is claimed of it. No arm answers it in this model. -/
  | notModelled (mnemonic : String)
  /-- Answered by `step` in a state where no Reset or Load has run since power-on: R121 asks for this refusal. Safe. -/
  | notReset
  deriving DecidableEq, Repr

/-- What a meaning and a step answer. -/
abbrev Result := Host.Outcome State Fault Refusal

/-- The state after `Reset()` (R119), every field at the value R119 gives it. The memory lists nothing: an unlisted address reads as Reset
leaves it. The model's own fields: the default FONT (log 4, PRESUMED, unsafe), no report yet (log 2, DESIGN CHOICE), no random byte drawn
(log 5, DESIGN CHOICE). -/
def State.reset : State where
  v := Vector.replicate 16 0x00
  pc := 0x200
  i := 0x0000
  stack := Vector.replicate 16 0x0000
  sp := 0
  dt := 0x00
  st := 0x00
  mem := { font := Config.defaultFont, cells := [] }
  fb := Vector.replicate 32 0
  key := Vector.replicate 16 false
  redraw := false
  fault := none
  ready := true
  report := none
  draws := 0

end Sys2Proof.Machine
end

