-- ==== Sys2Proof/Machine/Ops.lean ====
section
/-! DEFINITION. The named operations every meaning is built from: memory, registers, pc, range checks, the call-stack engine, taking a
fatal fault, fetch, and the end of a step. -/

namespace Sys2Proof.Machine

/-! Memory (spec 20_memory.md). -/

/-- What an address that no cell lists reads as: what Reset leaves there, FONT in 0x000..0x04F and 0x00 elsewhere (R24, R35, R119). -/
def Memory.unlisted (m : Memory) (a : Nat) : Byte :=
  if h : a < Config.fontSize then m.font[a] else 0x00

/-- The byte a list of cells gives for an address, if it lists one. -/
def lookupCell : List Host.Cell → Nat → Option Byte
  | [], _ => none
  | (b, w) :: cells, a => if a = b then some w else lookupCell cells a

/-- `MemRead(a, 1)` (R13). Meant for addresses 0x000..0xFFF: every access is behind `checkRange`, which faults on any other. -/
def Memory.read (m : Memory) (a : Nat) : Byte :=
  (lookupCell m.cells a).getD (m.unlisted a)

/-- Put a byte into a rising list of cells, listing it only where it differs from `unlisted`, what the address reads as unlisted. -/
def putCell (a : Nat) (value unlisted : Byte) : List Host.Cell → List Host.Cell
  | [] => if value = unlisted then [] else [(a, value)]
  | (b, w) :: cells =>
    if a < b then (if value = unlisted then (b, w) :: cells else (a, value) :: (b, w) :: cells)
    else if a = b then (if value = unlisted then cells else (a, value) :: cells)
    else (b, w) :: putCell a value unlisted cells

/-- `MemWrite(a, 1, v)` (R13): no address in 0x000..0xFFF is protected (R37). Above 0xFFF there is no cell; no meaning writes there, since
every access is behind `checkRange`. -/
def Memory.write (m : Memory) (a : Nat) (value : Byte) : Memory :=
  { m with cells := if a < Config.memSize then putCell a value (m.unlisted a) m.cells else m.cells }

/-- The bytes at a, a+1, ..., a+n-1 in ascending order (R41). -/
def Memory.readBytes (m : Memory) (a : Nat) : Nat → List Byte
  | 0 => []
  | n + 1 => m.read a :: m.readBytes (a + 1) n

/-- Store bytes at a, a+1, ... in ascending order (R41). -/
def Memory.storeBytes (m : Memory) (a : Nat) : List Byte → Memory
  | [] => m
  | value :: rest => (m.write a value).storeBytes (a + 1) rest

/-- The canonical form from address `lo` on: addresses strictly rising, all below 0x1000, and no cell equal to what its address reads as
unlisted. -/
def Memory.wfFrom (m : Memory) (lo : Nat) : List Host.Cell → Bool
  | [] => true
  | (a, value) :: cells =>
    decide (lo ≤ a) && decide (a < Config.memSize) && decide (value ≠ m.unlisted a) && m.wfFrom (a + 1) cells

/-- The memory is in its canonical form, so that equal memories are equal data. -/
def Memory.wf (m : Memory) : Bool := m.wfFrom 0 m.cells

/-- `CheckRange(a, n)` (R13, R36): the lowest address in a .. a+n-1 that is above 0xFFF, if there is one. -/
def lowestOutOfRange (a n : Nat) : Option Nat :=
  ((List.range n).map (a + ·)).find? (fun b => decide (Config.memSize ≤ b))

/-! Registers (10_state.md R15, R16). -/

/-- VF, the register that doubles as the flag (R16). -/
def vf : Reg := 0xF

/-- V0, which BNNN reads (R74). -/
def v0 : Reg := 0x0

/-- Read V[x]. -/
def State.reg (s : State) (x : Reg) : Byte := s.v[x.toNat]'x.isLt

/-- Write V[x]. -/
def State.setReg (s : State) (x : Reg) (value : Byte) : State :=
  { s with v := s.v.set x.toNat value x.isLt }

/-- The values of V0..VX, in order (R94). -/
def State.regsUpTo (s : State) (x : Reg) : List Byte := s.v.toList.take (x.toNat + 1)

/-- Write bytes to the registers from number k on (R95). A byte past VF has no register: no meaning gives one. -/
def setRegsFrom (v : Vector Byte 16) (k : Nat) : List Byte → Vector Byte 16
  | [] => v
  | value :: rest => setRegsFrom (v.setIfInBounds k value) (k + 1) rest

/-! The program counter (R17): each sum is taken modulo 2^16 (D4). -/

/-- `pc <- trunc16(pc + 2)` (R58). -/
def State.advance (s : State) : State := { s with pc := s.pc + 2 }

/-- `pc <- trunc16(pc + 4)` when the condition holds, else `pc <- trunc16(pc + 2)` (R58, R64). -/
def State.skipIf (s : State) (condition : Bool) : State :=
  { s with pc := if condition then s.pc + 4 else s.pc + 2 }

/-- `pc <- t` (R12, R64): a target is not checked when it is written. -/
def State.jump (s : State) (target : Word) : State := { s with pc := target }

/-! Faults (60_exceptions.md). -/

/-- The numeric codes of R103, the spec's own (D27). -/
def ErrorKind.code : ErrorKind → Nat
  | .loadError => 1
  | .decodeError => 2
  | .fatal .stackOverflow => 3
  | .fatal .stackUnderflow => 4
  | .fatal .addressFault => 5
  | .fatal .keyIndexFault => 6

/-- `raise <Kind>(info)` (R13, R105): the shared operation by which every fatal fault is taken. The fault register records the kind, the
info and the pc, which still holds the faulting instruction's address; nothing else of the state changes. There is no return from it in the
instruction set (R109): only `reset` and `load` of Sys2Proof/Machine/Commands.lean clear the register. -/
def State.raise (s : State) (kind : FaultKind) (info : Nat) : Result :=
  .next { s with fault := some { kind := kind, info := info, pc := s.pc } }

/-- `CheckRange(a, n)` before `effect`: an address above 0xFFF raises `AddressFault` with the lowest one as info (R36). -/
def State.checkRange (s : State) (a n : Nat) (effect : State) : Result :=
  match lowestOutOfRange a n with
  | some bad => s.raise .addressFault bad
  | none => .next effect

/-! The call-stack engine (42_control_flow.md R65, R66). -/

/-- `Push(v)`: the state after it, or none when all 16 slots are occupied (R65). -/
def State.push (s : State) (value : Word) : Option State :=
  if h : s.sp.val < 16 then
    some { s with stack := s.stack.set s.sp.val value h, sp := ⟨s.sp.val + 1, by omega⟩ }
  else none

/-- `Pop()`: the most recent return address and the state after it, or none when the stack is empty. The slot keeps its value (R66). -/
def State.pop (s : State) : Option (Word × State) :=
  if h : 0 < s.sp.val then
    some (s.stack[s.sp.val - 1]'(by omega), { s with sp := ⟨s.sp.val - 1, by omega⟩ })
  else none

/-! Fetch and the end of a step (30_encoding.md R49, R55, R57). -/

/-- The word at pc, big-endian, for an odd pc too (R39, R40, R49). Its two addresses are checked by `step`. -/
def fetchWord (s : State) : Word :=
  wordOfBytes (s.mem.read s.pc.toNat) (s.mem.read (s.pc.toNat + 1))

/-- `Tick()` (R112): DT counts down by one while it is not zero. ST is not ticked (R113). -/
def State.tick (s : State) : State :=
  { s with dt := if s.dt = 0 then 0 else s.dt - 1 }

/-- Give the host the outcome of the Step (R104). -/
def State.answer (s : State) (r : Report) : State := { s with report := some r }

/-- A Step on an undefined word is a completed step: pc + 2, the tick, and the outcome with the word and the pc it was fetched from (R55). -/
def undefinedWord (op : Word) (s : State) : State :=
  (s.advance.tick).answer (.decodeError op s.pc)

/-- What the Step adds after fetch or Execute: the tick and `Ok` when no fault was raised (R57, R112), else the outcome `Fault(kind, info)`
and no tick (R105). It is applied to a state whose fault register was `None` before. -/
def State.complete (s : State) : State :=
  match s.fault with
  | none => s.tick.answer .ok
  | some record => s.answer (.fault record.kind record.info)

/-- `State.complete` on what a meaning answers; a meaning that stops stops the step. -/
def completeStep : Result → Result
  | .next s => .next s.complete
  | .fault r => .fault r
  | .refused r => .refused r

end Sys2Proof.Machine
end

