-- ==== Sys2Proof/Machine/Operands.lean ====
section
/-! DEFINITION. The operand forms: immediate and address fields (spec 30_encoding.md R51), the index-register address (44_index_memory.md
R89), the glyph address (R92), the key index (45_keys_timers.md R96) and the sprite coordinates (41_display.md R59, R60). A register operand
is `State.reg` (Sys2Proof/Machine/Ops.lean). -/

namespace Sys2Proof.Machine

/-- `zext_16(NNN)` (R51): the 12-bit address as a 16-bit value. -/
def zext16 (nnn : Addr12) : Word := nnn.setWidth 16

/-- The address I from which the bytes of DXYN, FX33, FX55 and FX65 are counted, as an unbounded number (R36, R89). -/
def State.indexAddress (s : State) : Nat := s.i.toNat

/-- `trunc16(zext_16(NNN) + V[0])` (R74), not masked to 12 bits (D26). -/
def offsetTarget (nnn : Addr12) (offset : Byte) : Word := zext16 nnn + offset.setWidth 16

/-- `trunc16(I + vx)` (R91). -/
def indexPlus (i : Word) (vx : Byte) : Word := i + vx.setWidth 16

/-- `trunc16(I + X + 1)`, the post-increment of FX55 and FX65 (R89, R94, R95). -/
def indexPast (i : Word) (x : Reg) : Word := i + BitVec.ofNat 16 (x.toNat + 1)

/-- `V[X] * 5` (R92), not masked to the low nibble (D25). -/
def glyphAddress (vx : Byte) : Word := BitVec.ofNat 16 (vx.toNat * Config.glyphStride)

/-- The key index in `vx`, if it is one of the 16 keys (R96). -/
def keyIndex (vx : Byte) : Option (Fin 16) :=
  if h : vx.toNat < 16 then some ⟨vx.toNat, h⟩ else none

/-- The column of sprite bit c (R60): `(x0 + c) mod 64`. -/
def pixelColumn (x0 : Byte) (c : Nat) : Fin 64 := Fin.ofNat 64 (x0.toNat + c)

/-- The row of sprite row r (R60): `(y0 + r) mod 32`. -/
def pixelRow (y0 : Byte) (r : Nat) : Fin 32 := Fin.ofNat 32 (y0.toNat + r)

/-- Sprite bit c of a row byte (R59): bit 7 is column 0. PRESUMED (log 8), unsafe: the spec takes this order from general knowledge. -/
def spriteBit (row : Byte) (c : Nat) : Bool := row.getLsbD (7 - c)

end Sys2Proof.Machine
end

