-- ==== Sys2Proof/Machine/Flags.lean ====
section
/-! DEFINITION. The flags written to VF (spec 10_state.md R16): carry, not borrow, the bit shifted out, I above 0xFFF. The collision flag is
computed by the sprite-blit unit (Sys2Proof/Machine/Display.lean). -/

namespace Sys2Proof.Machine

/-- A flag as the byte written to VF: 1 or 0. -/
def flagByte (flag : Bool) : Byte := if flag then 1 else 0

/-- Carry of an 8-bit add (R75, R83): `vx + vy > 0xFF`. -/
def carry (vx vy : Byte) : Bool := decide (vx.toNat + vy.toNat > 0xFF)

/-- Not borrow of `a - b` (R75, R84): `a >= b`. -/
def notBorrow (a b : Byte) : Bool := decide (a.toNat ≥ b.toNat)

/-- The flag of 8XY7 (R86): 0 when vx > vy and 1 otherwise, which is not borrow of `vy - vx` (C1). -/
def subnFlag (vx vy : Byte) : Bool := if vx.toNat > vy.toNat then false else true

/-- Old bit 0 (R85). -/
def bitZero (vx : Byte) : Bool := vx.getLsbD 0

/-- Old bit 7 (R87). -/
def bitSeven (vx : Byte) : Bool := vx.getLsbD 7

/-- `n > 0xFFF` (R91). -/
def indexAboveLimit (n : Word) : Bool := decide (n.toNat > Config.indexFlagLimit)

/-- Write a flag to VF (R16). -/
def State.setFlag (s : State) (flag : Bool) : State := s.setReg vf (flagByte flag)

/-- Write the result to V[x] and then the flag to VF, so that with x = 0xF the flag stays (R14, R76, D14). -/
def State.setRegFlag (s : State) (x : Reg) (value : Byte) (flag : Bool) : State :=
  (s.setReg x value).setFlag flag

end Sys2Proof.Machine
end

