-- ==== Sys2Proof/Machine/Alu.lean ====
section
/-! DEFINITION. Register loads and arithmetic-logic instructions (spec 43_alu.md). Operands are read from the state before the step, and the
flag is written last (R14, R76). -/

namespace Sys2Proof.Machine

/-- 6XNN (R77). -/
def execLdImm (x : Reg) (nn : Byte) (s : State) : Result := .next (s.setReg x nn).advance

/-- 7XNN (R78): the sum is taken modulo 256 and no flag is written. -/
def execAddImm (x : Reg) (nn : Byte) (s : State) : Result := .next (s.setReg x (s.reg x + nn)).advance

/-- 8XY0 (R79). -/
def execLdReg (x y : Reg) (s : State) : Result := .next (s.setReg x (s.reg y)).advance

/-- 8XY1 (R80): VF is not written (R76, D13). -/
def execOrReg (x y : Reg) (s : State) : Result := .next (s.setReg x (s.reg x ||| s.reg y)).advance

/-- 8XY2 (R81): VF is not written (R76, D13). -/
def execAndReg (x y : Reg) (s : State) : Result := .next (s.setReg x (s.reg x &&& s.reg y)).advance

/-- 8XY3 (R82): VF is not written (R76, D13). -/
def execXorReg (x y : Reg) (s : State) : Result := .next (s.setReg x (s.reg x ^^^ s.reg y)).advance

/-- 8XY4 (R83). -/
def execAddReg (x y : Reg) (s : State) : Result :=
  .next (s.setRegFlag x (s.reg x + s.reg y) (carry (s.reg x) (s.reg y))).advance

/-- 8XY5 (R84). -/
def execSubReg (x y : Reg) (s : State) : Result :=
  .next (s.setRegFlag x (s.reg x - s.reg y) (notBorrow (s.reg x) (s.reg y))).advance

/-- 8XY6 (R85): VX is shifted in place and VY is not read (D12). -/
def execShrReg (x _y : Reg) (s : State) : Result :=
  .next (s.setRegFlag x (s.reg x >>> 1) (bitZero (s.reg x))).advance

/-- 8XY7 (R86). -/
def execSubnReg (x y : Reg) (s : State) : Result :=
  .next (s.setRegFlag x (s.reg y - s.reg x) (subnFlag (s.reg x) (s.reg y))).advance

/-- 8XYE (R87): VX is shifted in place and VY is not read (D12). -/
def execShlReg (x _y : Reg) (s : State) : Result :=
  .next (s.setRegFlag x (s.reg x <<< 1) (bitSeven (s.reg x))).advance

/-- CXNN with the random byte r (R88). -/
def randomAnd (r : Byte) (x : Reg) (nn : Byte) (s : State) : State := (s.setReg x (r &&& nn)).advance

/-- CXNN (R88): it takes the next byte of the random source, a free value (log 5). -/
def execRnd (x : Reg) (nn : Byte) (s : State) : Result :=
  .next { randomAnd (Config.randomByte s.draws) x nn s with draws := s.draws + 1 }

end Sys2Proof.Machine
end

