-- ==== Sys2Proof/Machine/Control.lean ====
section
/-! DEFINITION. Control flow (spec 42_control_flow.md): return, jumps, call and skips. -/

namespace Sys2Proof.Machine

/-- 00EE (R67): the popped slot holds the address of the call, and the return adds 2. -/
def execRet (s : State) : Result :=
  match s.pop with
  | some (a, t) => .next (t.jump (a + 2))
  | none => s.raise .stackUnderflow s.pc.toNat

/-- 1NNN (R68). -/
def execJp (nnn : Addr12) (s : State) : Result := .next (s.jump (zext16 nnn))

/-- 2NNN (R69): it pushes its own address. -/
def execCall (nnn : Addr12) (s : State) : Result :=
  match s.push s.pc with
  | some t => .next (t.jump (zext16 nnn))
  | none => s.raise .stackOverflow s.pc.toNat

/-- 3XNN (R70). -/
def execSeImm (x : Reg) (nn : Byte) (s : State) : Result := .next (s.skipIf (s.reg x == nn))

/-- 4XNN (R71). -/
def execSneImm (x : Reg) (nn : Byte) (s : State) : Result := .next (s.skipIf (s.reg x != nn))

/-- 5XY0 (R72). -/
def execSeReg (x y : Reg) (s : State) : Result := .next (s.skipIf (s.reg x == s.reg y))

/-- 9XY0 (R73). -/
def execSneReg (x y : Reg) (s : State) : Result := .next (s.skipIf (s.reg x != s.reg y))

/-- BNNN (R74): the offset register is always V0. -/
def execJpV0 (nnn : Addr12) (s : State) : Result := .next (s.jump (offsetTarget nnn (s.reg v0)))

end Sys2Proof.Machine
end

