-- ==== Sys2Proof/Machine/Display.lean ====
section
/-! DEFINITION. The display instructions and the sprite-blit unit (spec 41_display.md): 00E0 and DXYN. -/

namespace Sys2Proof.Machine

/-- The framebuffer with every pixel 0. -/
def blankFramebuffer : Framebuffer := Vector.replicate 32 0

/-- The pixel fb[x, y] (R25). -/
def pixel (fb : Framebuffer) (x : Fin 64) (y : Fin 32) : Bool := fb[y].getLsbD x

/-- `fb[x, y] <- fb[x, y] XOR 1` (R61). -/
def togglePixel (fb : Framebuffer) (x : Fin 64) (y : Fin 32) : Framebuffer :=
  fb.set y (fb[y] ^^^ BitVec.twoPow 64 x)

/-- What the sprite-blit unit works on: the framebuffer and whether a collision has happened (R61, `hit` in R63). -/
structure Blit where
  fb  : Framebuffer
  hit : Bool
  deriving DecidableEq, Repr

/-- One set sprite bit on its target pixel: record a collision if the pixel is 1, then flip it (R61, R63). -/
def blitPixel (y : Fin 32) (b : Blit) (x : Fin 64) : Blit :=
  { fb := togglePixel b.fb x y, hit := b.hit || pixel b.fb x y }

/-- The columns of the set bits of a row byte, from column 0 to column 7 (R59, R60). -/
def spriteColumns (x0 : Byte) (row : Byte) : List (Fin 64) :=
  ((List.range 8).filter (spriteBit row)).map (pixelColumn x0)

/-- One row byte drawn at framebuffer row y. -/
def blitRow (x0 : Byte) (y : Fin 32) (b : Blit) (row : Byte) : Blit :=
  (spriteColumns x0 row).foldl (blitPixel y) b

/-- The rows r, r+1, ... of a sprite drawn one after the other (the loop of R63). -/
def blitRows (x0 y0 : Byte) (r : Nat) (b : Blit) : List Byte → Blit
  | [] => b
  | row :: rows => blitRows x0 y0 (r + 1) (blitRow x0 (pixelRow y0 r) b row) rows

/-- The whole sprite of DXYN: n rows from memory at I, drawn at (V[x], V[y]), with no collision yet (R63). -/
def drawSprite (x y : Reg) (n : Rows) (s : State) : Blit :=
  blitRows (s.reg x) (s.reg y) 0 { fb := s.fb, hit := false } (s.mem.readBytes s.indexAddress n.toNat)

/-- 00E0 (R62). -/
def execCls (s : State) : Result :=
  .next { s with fb := blankFramebuffer, redraw := true }.advance

/-- DXYN (R63): the range of all its reads is checked before any pixel changes. -/
def execDrw (x y : Reg) (n : Rows) (s : State) : Result :=
  let b := drawSprite x y n s
  s.checkRange s.indexAddress n.toNat (({ s with fb := b.fb, redraw := true }.setFlag b.hit).advance)

end Sys2Proof.Machine
end

