-- ==== Sys2Proof/Machine/Index.lean ====
section
/-! DEFINITION. Index register, BCD encoder and register block transfer (spec 44_index_memory.md). -/

namespace Sys2Proof.Machine

/-- ANNN (R90). -/
def execLdI (nnn : Addr12) (s : State) : Result := .next { s with i := zext16 nnn }.advance

/-- FX1E (R91): the flag tests the new I, after the 16-bit wrap (D5, D6). -/
def execAddI (x : Reg) (s : State) : Result :=
  let n := indexPlus s.i (s.reg x)
  .next ({ s with i := n }.setFlag (indexAboveLimit n)).advance

/-- FX29 (R92). -/
def execLdF (x : Reg) (s : State) : Result := .next { s with i := glyphAddress (s.reg x) }.advance

/-- The BCD encoder (R93): hundreds, tens and ones of a byte. -/
def bcdDigits (vx : Byte) : List Byte :=
  [BitVec.ofNat 8 (vx.toNat / 100), BitVec.ofNat 8 ((vx.toNat / 10) % 10), BitVec.ofNat 8 (vx.toNat % 10)]

/-- FX33 (R93): I is unchanged. -/
def execLdB (x : Reg) (s : State) : Result :=
  s.checkRange s.indexAddress 3 { s with mem := s.mem.storeBytes s.indexAddress (bcdDigits (s.reg x)) }.advance

/-- FX55 (R94): store V0..VX, then I moves past the bytes. -/
def execLdStore (x : Reg) (s : State) : Result :=
  s.checkRange s.indexAddress (x.toNat + 1)
    { s with mem := s.mem.storeBytes s.indexAddress (s.regsUpTo x), i := indexPast s.i x }.advance

/-- FX65 (R95): load V0..VX, then I moves past the bytes. -/
def execLdLoad (x : Reg) (s : State) : Result :=
  s.checkRange s.indexAddress (x.toNat + 1)
    { s with v := setRegsFrom s.v 0 (s.mem.readBytes s.indexAddress (x.toNat + 1)), i := indexPast s.i x }.advance

end Sys2Proof.Machine
end

