-- ==== Sys2Proof/Machine/Keys.lean ====
section
/-! DEFINITION. Keypad and timer instructions (spec 45_keys_timers.md). -/

namespace Sys2Proof.Machine

/-- The least key index that is pressed (R99, D18). -/
def leastPressed (key : Vector Bool 16) : Option (Fin 16) := (List.finRange 16).find? (fun k => key[k])

/-- EX9E (R97). -/
def execSkp (x : Reg) (s : State) : Result :=
  match keyIndex (s.reg x) with
  | some k => .next (s.skipIf s.key[k])
  | none => s.raise .keyIndexFault (s.reg x).toNat

/-- EXA1 (R98). -/
def execSknp (x : Reg) (s : State) : Result :=
  match keyIndex (s.reg x) with
  | some k => .next (s.skipIf (!s.key[k]))
  | none => s.raise .keyIndexFault (s.reg x).toNat

/-- FX07 (R100): DT before this step's tick. -/
def execLdVDt (x : Reg) (s : State) : Result := .next (s.setReg x s.dt).advance

/-- FX0A (R99): one poll; with no key pressed nothing changes and pc stays (D18). -/
def execLdVK (x : Reg) (s : State) : Result :=
  match leastPressed s.key with
  | some k => .next (s.setReg x (BitVec.ofNat 8 k.val)).advance
  | none => .next s

/-- FX15 (R101): this step's tick then applies to the new value (R124). -/
def execLdDt (x : Reg) (s : State) : Result := .next { s with dt := s.reg x }.advance

/-- FX18 (R102). -/
def execLdSt (x : Reg) (s : State) : Result := .next { s with st := s.reg x }.advance

end Sys2Proof.Machine
end

