-- ==== Sys2Proof/Machine/Step.lean ====
section
/-! DEFINITION. `Step()` of spec 30_encoding.md R57, with the checks in the order of 60_exceptions.md R107. -/

namespace Sys2Proof.Machine

/-- One Step. Before the first Reset or Load it is refused (R121). While the fault register is set it changes nothing and answers `Halted`
(R106). Otherwise it fetches (R49), decodes (R53), executes, ticks (R112) and answers its outcome (R104). -/
def step (s : State) : Host.Outcome State Fault Refusal :=
  match s.ready, s.fault with
  | false, _ => .refused .notReset
  | true, some _ => .next (s.answer .halted)
  | true, none =>
    match lowestOutOfRange s.pc.toNat 2 with
    | some bad => completeStep (s.raise .addressFault bad)
    | none =>
      match decode (fetchWord s) with
      | .undefined _ => .next (undefinedWord (fetchWord s) s)
      | .instr i => completeStep (exec i s)

/-- The state with the host's word placed where the next step fetches: at pc, or at 0x200 where pc has no two bytes to fetch, in a block that
is reset and not halted. In every state that a step could fetch from, only the two bytes change. -/
def State.withFetchWord (s : State) (nbits w : Nat) : State :=
  let op := tableWord nbits w
  let pc := if s.pc.toNat + 1 < Config.memSize then s.pc else 0x200
  { s with ready := true, fault := none, pc := pc, mem := s.mem.storeBytes pc.toNat [highByte op, lowByte op] }

end Sys2Proof.Machine
end

