-- ==== Sys2Proof/Machine/Commands.lean ====
section
/-! DEFINITION. The block's interface to the host (spec 10_state.md R31, R32; 70_reset_and_hazards.md R119, R120): the commands Reset, Load
and Step, and what the host may touch between them. -/

namespace Sys2Proof.Machine

/-- `Reset()` (R119): every element at its reset value, whatever the state was. The parameter FONT stays the machine's own, and the count of
random bytes goes on, because Reset's seeding constrains no later draw (R29; log 5). -/
def reset (s : State) : State :=
  { State.reset with mem := { font := s.mem.font, cells := [] }, draws := s.draws }

/-- The result of `Load(bytes)` (R120, R103). -/
inductive LoadResult
  | ok
  | loadError (length : Nat)
  deriving DecidableEq, Repr

/-- `Load(bytes)` (R120): reset, then the length check, then the copy to 0x200. -/
def load (bytes : List Byte) (s : State) : State × LoadResult :=
  let t := reset s
  if imageWellFormed bytes then ({ t with mem := t.mem.storeBytes Config.progStart bytes }, .ok)
  else (t, .loadError bytes.length)

/-- The host sets the 16 key states (R32). -/
def setKeys (key : Vector Bool 16) (s : State) : State := { s with key := key }

/-- A key state given as a byte: nonzero means pressed (R26, C13). -/
def keyOfByte (b : Byte) : Bool := b != 0

/-- The host clears the redraw flag (R27, R32). -/
def clearRedraw (s : State) : State := { s with redraw := false }

/-- The sound timer asks for a tone while it is not zero (R22, R102). -/
def toneRequested (s : State) : Bool := s.st != 0

/-- Everything the host can do to the block: the three commands of R31 and the two writes of R32. -/
inductive Command
  | reset
  | load (bytes : List Byte)
  | step
  | setKeys (key : Vector Bool 16)
  | clearRedraw
  deriving DecidableEq, Repr

/-- One transaction (R5, R42): the new state of a command. Only a Step can be refused (R121). -/
def command (c : Command) (s : State) : Result :=
  match c with
  | .reset => .next (reset s)
  | .load bytes => .next (load bytes s).1
  | .step => step s
  | .setKeys key => .next (setKeys key s)
  | .clearRedraw => .next (clearRedraw s)

end Sys2Proof.Machine
end

