-- ==== Sys2Proof/Safety.lean ====
section
/-! DEFINITION. The words claims use: a safe state, runs, the invariant of the machine, the states a host can bring about, and what an
instruction leaves unchanged. -/

namespace Sys2Proof.Machine

/-- A state in which a Step executes an instruction: reset or loaded (R121) and not halted (R106). -/
def State.running (s : State) : Prop := s.ready = true ∧ s.fault = none

/-- A run until the host's END_OF_RUN predicate (R7, D36; log 6), at most `fuel` steps: the state it ends in, or none if it has not ended or
a step was refused. -/
def runUntil (endOfRun : State → Bool) : Nat → State → Option State
  | fuel, s =>
    if endOfRun s then some s
    else match fuel with
      | 0 => none
      | fuel + 1 =>
        match step s with
        | .next t => runUntil endOfRun fuel t
        | .fault _ => none
        | .refused _ => none

/-- What the fault register may hold: a stack fault records its own pc, an address fault an address above 0xFFF, a key fault a number above
0xF (R103). -/
def FaultRecord.sound (r : FaultRecord) : Prop :=
  match r.kind with
  | .stackOverflow => r.info = r.pc.toNat
  | .stackUnderflow => r.info = r.pc.toNat
  | .addressFault => 0xFFF < r.info
  | .keyIndexFault => 0xF < r.info ∧ r.info ≤ 0xFF

/-- Every occupied stack slot holds an address at which a call was fetched, so at most 0xFFE (R19, R49, R67). -/
def State.slotsFetchable (s : State) : Prop :=
  ∀ j : Fin 16, j.val < s.sp.val → s.stack[j].toNat ≤ 0xFFE

/-- The invariant: the memory is in its canonical form, the occupied slots hold fetchable addresses, and the fault register is sound. -/
def Inv (s : State) : Prop :=
  s.mem.wf = true ∧ s.slotsFetchable ∧ ∀ r, s.fault = some r → r.sound

/-- A power-on state in which the host has issued Reset or Load and then any commands (R31, R32, R121). Every element of the power-on state
`s` is unspecified, its cells and its FONT with it. -/
inductive Reachable : State → Prop
  | afterReset (s : State) : Reachable (reset s)
  | afterLoad (bytes : List Byte) (s : State) : Reachable (load bytes s).1
  | afterCommand (c : Command) (s t : State) : Reachable s → command c s = .next t → Reachable t

/-! What an instruction leaves unchanged, in the terms of what software and host can see: registers, bytes, slots, pixels. -/

/-- Every variable register outside the list keeps its value. -/
def KeepsRegsBut (written : List Reg) (s t : State) : Prop := ∀ r : Reg, r ∉ written → t.reg r = s.reg r

/-- Every byte of memory reads as before. -/
def KeepsMemory (s t : State) : Prop := ∀ a : Nat, t.mem.read a = s.mem.read a

/-- Every byte of memory outside a .. a+n-1 reads as before. -/
def KeepsMemoryOutside (a n : Nat) (s t : State) : Prop := ∀ b : Nat, b < a ∨ a + n ≤ b → t.mem.read b = s.mem.read b

/-- The call stack keeps its slots and its pointer. -/
def KeepsStack (s t : State) : Prop := t.stack = s.stack ∧ t.sp = s.sp

/-- Every pixel and the redraw flag keep their values. -/
def KeepsDisplay (s t : State) : Prop := (∀ x y, pixel t.fb x y = pixel s.fb x y) ∧ t.redraw = s.redraw

/-- Both timers keep their values. -/
def KeepsTimers (s t : State) : Prop := t.dt = s.dt ∧ t.st = s.st

/-- The keypad, the fault register, the reset status and FONT keep their values, and so does the model's report. -/
def KeepsControl (s t : State) : Prop :=
  t.key = s.key ∧ t.fault = s.fault ∧ t.ready = s.ready ∧ t.mem.font = s.mem.font ∧ t.report = s.report

/-- No random byte is drawn. -/
def KeepsDraws (s t : State) : Prop := t.draws = s.draws

/-- Only pc and the listed registers may have changed. -/
def ChangesOnlyPcAndRegs (written : List Reg) (s t : State) : Prop :=
  KeepsRegsBut written s t ∧ t.i = s.i ∧ KeepsMemory s t ∧ KeepsStack s t ∧ KeepsDisplay s t ∧ KeepsTimers s t ∧ KeepsControl s t ∧
  KeepsDraws s t

/-- `pc <- trunc16(pc + n)`, in unbounded numbers (R10, R17). -/
def PcPlus (n : Nat) (s t : State) : Prop := t.pc.toNat = (s.pc.toNat + n) % 0x10000

/-- Every word that a mask and a match select (R52) decodes to the instruction that `f` makes of its fields. -/
def Encodes (mask pattern : Word) (f : Word → Instr) : Prop := ∀ op : Word, op &&& mask = pattern → decode op = .instr (f op)

end Sys2Proof.Machine
end

