-- ==== Sys2Proof/Certificates/Slice0/Obligations.lean ====
section
/-! DEFINITION. The statements for the provers. Each says which rule of the spec it formalises; where a clause rests on one of the spec's own
decisions (92_eei_decisions.md D<n>) or inferences, or on a choice of the model, the docstring says so. -/

open Sys2Proof Sys2Proof.Machine

/-! Encoding (spec 30_encoding.md). -/

/-- Words written out from the encodings of R52, one of each format, decode to their instructions. -/
def Obligations.SpecWordsDecode : Prop :=
  decode 0x00E0 = .instr .cls ∧ decode 0x00EE = .instr .ret ∧ decode 0x1ABC = .instr (.jp 0xABC) ∧
  decode 0x6A42 = .instr (.ldImm 0xA 0x42) ∧ decode 0x8124 = .instr (.addReg 0x1 0x2) ∧ decode 0xD012 = .instr (.drw 0x0 0x1 0x2) ∧
  decode 0xE19E = .instr (.skp 0x1) ∧ decode 0xF355 = .instr (.ldStore 0x3)

/-- Decoding the word of any instruction gives the instruction back, every operand with it (R50, R51, R52). Every `Instr` is well formed by
its types. -/
def Obligations.DecodeOfEncodeIsTheInstruction : Prop :=
  ∀ i : Instr, decode (encode i) = .instr i ∧ ∀ rest : List Byte, decodeBytes (encodeBytes i ++ rest) = (.instr i, rest)

/-- A word that decodes to an instruction is that instruction's word: no two words have one meaning, and no bit is ignored. -/
def Obligations.EncodeOfDecodeIsTheWord : Prop :=
  ∀ (op : Word) (i : Instr), decode op = .instr i → encode i = op

/-- The decoder of R53 and the table of R52 agree: a row selects a word (op AND mask = match) exactly when the decoder gives an instruction
of that row; the table has 34 rows, and no two rows select one word. -/
def Obligations.DecodeAgreesWithOpcodeTable : Prop :=
  opcodeTable.length = 34 ∧
  (∀ (op : Word) (row : OpcodeRow), row ∈ opcodeTable →
    (op &&& row.mask = row.pattern ↔ ∃ i, decode op = .instr i ∧ i.mnemonic = row.mnemonic)) ∧
  (∀ (op : Word) (row row' : OpcodeRow), row ∈ opcodeTable → row' ∈ opcodeTable →
    op &&& row.mask = row.pattern → op &&& row'.mask = row'.pattern → row = row')

/-- The undefined words are those of the table of R54, class by class. That 5XYN and 9XYN with N not 0 are among them is the spec's decision
D11. -/
def Obligations.UndefinedWordsAreThoseOfTheSpec : Prop :=
  ∀ op : Word, (∃ why, decode op = .undefined why) ↔
    (op.toNat / 0x1000 = 0x0 ∧ op.toNat ≠ 0x00E0 ∧ op.toNat ≠ 0x00EE) ∨
    (op.toNat / 0x1000 = 0x5 ∧ op.toNat % 0x10 ≠ 0) ∨
    (op.toNat / 0x1000 = 0x8 ∧ op.toNat % 0x10 ∈ [0x8, 0x9, 0xA, 0xB, 0xC, 0xD, 0xF]) ∨
    (op.toNat / 0x1000 = 0x9 ∧ op.toNat % 0x10 ≠ 0) ∨
    (op.toNat / 0x1000 = 0xE ∧ op.toNat % 0x100 ∉ [0x9E, 0xA1]) ∨
    (op.toNat / 0x1000 = 0xF ∧ op.toNat % 0x100 ∉ [0x07, 0x0A, 0x15, 0x18, 0x1E, 0x29, 0x33, 0x55, 0x65])

/-! The step cycle (R49, R55, R57) and faults (60_exceptions.md). -/

/-- When the two bytes at pc, big-endian, decode to an instruction, a step is that instruction's own effect, and then: without a fault the
delay timer is one less, never below zero, and the report is `Ok` (R57, R112); with a fault the report is the fault, with no tick (R105). That
the outcome is held in a field of the state is the model's choice (log 2). -/
def Obligations.StepRunsTheDecodedInstruction : Prop :=
  ∀ (s : State) (i : Instr) (u : State), s.running → s.pc.toNat ≤ 0xFFE →
    decode (s.mem.read s.pc.toNat ++ s.mem.read (s.pc.toNat + 1)) = .instr i → exec i s = .next u →
    (u.fault = none →
      ∃ t, step s = .next t ∧ t.dt.toNat = u.dt.toNat - 1 ∧ t = { u with dt := t.dt, report := some .ok }) ∧
    (∀ r, u.fault = some r → step s = .next { u with report := some (.fault r.kind r.info) })

/-- Every instruction has an effect in every state: its own execution always answers a next state (R111, an inference of the spec). -/
def Obligations.EveryInstructionExecutesInEveryState : Prop :=
  ∀ (i : Instr) (s : State), ∃ t, exec i s = .next t

/-- A Step before the first Reset or Load is refused, whatever the rest of the power-on state is (R121, decision D32). -/
def Obligations.StepBeforeResetIsRefused : Prop :=
  ∀ s : State, s.ready = false → step s = .refused .notReset

/-- A Step on a halted block changes nothing but the report, which is `Halted` (R106, decision D8; the report is log 2). -/
def Obligations.HaltedStepChangesNothing : Prop :=
  ∀ (s : State) (r : FaultRecord), s.ready = true → s.fault = some r → step s = .next { s with report := some .halted }

/-- A fetch at 0xFFF faults with info 0x1000, and one at or above 0x1000 with info pc; nothing else changes (R49, decisions D2, D3). -/
def Obligations.FetchOutsideMemoryFaults : Prop :=
  ∀ s : State, s.running → 0xFFE < s.pc.toNat →
    step s = .next { s with
      fault := some ⟨.addressFault, if s.pc.toNat = 0xFFF then 0x1000 else s.pc.toNat, s.pc⟩
      report := some (.fault .addressFault (if s.pc.toNat = 0xFFF then 0x1000 else s.pc.toNat)) }

/-- A Step on an undefined word advances pc by 2, ticks, and reports the word and the pc it was fetched from; nothing else changes (R55,
decision D10). -/
def Obligations.UndefinedWordIsACompletedStep : Prop :=
  ∀ (s : State) (why : Reject), s.running → s.pc.toNat ≤ 0xFFE →
    decode (s.mem.read s.pc.toNat ++ s.mem.read (s.pc.toNat + 1)) = .undefined why →
    ∃ t, step s = .next t ∧ PcPlus 2 s t ∧ t.dt.toNat = s.dt.toNat - 1 ∧
      t = { s with pc := t.pc, dt := t.dt,
                   report := some (.decodeError (s.mem.read s.pc.toNat ++ s.mem.read (s.pc.toNat + 1)) s.pc) }

/-- A faulting step is precise: whatever raised the fault, only the fault register and the report change, and the record holds the pc of the
step (R105, decisions D8, D9). -/
def Obligations.FaultingStepIsPrecise : Prop :=
  ∀ s t : State, s.running → step s = .next t → t.fault ≠ none →
    ∃ kind info, t = { s with fault := some ⟨kind, info, s.pc⟩, report := some (.fault kind info) }

/-- A Step of a block that has been reset always answers, with exactly one outcome: `Halted` when the fault register was set; else `Ok` or
`DecodeError`, with the fault register still `None`; else the fault that the register now records (R104, decisions D8, D10). -/
def Obligations.EveryStepReportsItsOutcome : Prop :=
  ∀ s : State, s.ready = true → ∃ t, step s = .next t ∧ t.ready = true ∧
    ((s.fault ≠ none ∧ t.report = some .halted) ∨
     (s.fault = none ∧ t.fault = none ∧ (t.report = some .ok ∨ ∃ op, t.report = some (.decodeError op s.pc))) ∨
     (s.fault = none ∧ ∃ r, t.fault = some r ∧ t.report = some (.fault r.kind r.info)))

/-- Which instruction raises which fault, and exactly when (R107's table, R65, R66, R36 with R63, R93, R94 and R95, R96; the spec's decisions D2,
D7, D17 and D28): from a state without a fault, the next state records a fault of a kind exactly when the condition of that kind holds. -/
def Obligations.EachFaultHasItsInstructions : Prop :=
  ∀ (i : Instr) (s t : State), s.fault = none → exec i s = .next t →
    ((∃ r, t.fault = some r ∧ r.kind = .stackOverflow) ↔ (∃ nnn, i = .call nnn) ∧ s.sp.val = 16) ∧
    ((∃ r, t.fault = some r ∧ r.kind = .stackUnderflow) ↔ i = .ret ∧ s.sp.val = 0) ∧
    ((∃ r, t.fault = some r ∧ r.kind = .addressFault) ↔
      (∃ x y n, i = .drw x y n ∧ n ≠ 0 ∧ 0x1000 < s.i.toNat + n.toNat) ∨
      (∃ x, i = .ldB x ∧ 0xFFF < s.i.toNat + 2) ∨
      (∃ x, (i = .ldStore x ∨ i = .ldLoad x) ∧ 0xFFF < s.i.toNat + x.toNat)) ∧
    ((∃ r, t.fault = some r ∧ r.kind = .keyIndexFault) ↔ ∃ x, (i = .skp x ∨ i = .sknp x) ∧ 0xF < (s.reg x).toNat)

/-- A completed step takes one off the delay timer, which stops at zero and never wraps, except that under FX15 the timer ends at VX less one
(R112, R101, R124, decision D20). -/
def Obligations.CompletedStepTicksTheDelayTimer : Prop :=
  ∀ s t : State, s.running → step s = .next t → t.fault = none →
    (∀ x, decode (fetchWord s) = .instr (.ldDt x) → t.dt.toNat = (s.reg x).toNat - 1) ∧
    ((∀ x, decode (fetchWord s) ≠ .instr (.ldDt x)) → t.dt.toNat = s.dt.toNat - 1)

/-- Over any k completed steps, none of which executes FX15, the delay timer falls by k and stops at zero (R112, R124). -/
def Obligations.DelayTimerCountsCompletedSteps : Prop :=
  ∀ (k : Nat) (run : Nat → State), (run 0).running →
    (∀ j, j < k → step (run j) = .next (run (j + 1)) ∧ (run (j + 1)).fault = none ∧
      ∀ x, decode (fetchWord (run j)) ≠ .instr (.ldDt x)) →
    (run k).running ∧ (run k).dt.toNat = (run 0).dt.toNat - k

/-! Rules about the whole machine. -/

/-- The invariant `Inv` holds after Reset, from whatever state Reset is issued, and in the model's `State.reset`. -/
def Obligations.ResetMeetsTheInvariant : Prop :=
  Inv State.reset ∧ ∀ s : State, Inv (reset s)

/-- Every step keeps the invariant: the memory stays in its canonical form, every occupied stack slot holds an address a call was fetched from
(at most 0xFFE), and the fault register's info fits its kind. From every state that meets it, not only from runs. -/
def Obligations.EveryStepKeepsTheInvariant : Prop :=
  ∀ s t : State, Inv s → step s = .next t → Inv t

/-- Every state that a host can bring about by Reset or Load and then any commands meets the invariant, has been reset, and keeps the 80 bytes
of FONT of its machine under every further command. -/
def Obligations.ReachableStatesMeetTheInvariant : Prop :=
  ∀ s : State, Reachable s → Inv s ∧ s.ready = true ∧ ∀ c t, command c s = .next t → t.mem.font = s.mem.font

/-- In a state that meets the invariant a return never wraps pc: it goes to the address after the call that pushed the slot (R67's corner case;
decision D4). -/
def Obligations.ReturnNeverWrapsPc : Prop :=
  ∀ (s : State) (h : 0 < s.sp.val), Inv s →
    ∃ t, exec .ret s = .next t ∧ t.pc.toNat = s.stack[s.sp.val - 1].toNat + 2 ∧ t.pc.toNat ≤ 0x1000

/-- Who writes each element of the state: I, memory, stack slots, sp, pixels, redraw (only ever to true), DT, ST (R18, R19, R21, R22, R25, R27,
R33); the keypad is written by no instruction (R26). The last three clauses are about the model's own fields. -/
def Obligations.EachStateElementHasItsWriters : Prop :=
  ∀ (i : Instr) (s t : State), exec i s = .next t →
    (t.i ≠ s.i → i.mnemonic ∈ ["ANNN", "FX1E", "FX29", "FX55", "FX65"]) ∧
    (¬ KeepsMemory s t → i.mnemonic ∈ ["FX33", "FX55"]) ∧
    (t.stack ≠ s.stack → i.mnemonic = "2NNN") ∧
    (t.sp ≠ s.sp → i.mnemonic ∈ ["2NNN", "00EE"]) ∧
    (¬ KeepsDisplay s t → i.mnemonic ∈ ["00E0", "DXYN"]) ∧
    (t.redraw ≠ s.redraw → t.redraw = true) ∧
    (t.dt ≠ s.dt → i.mnemonic = "FX15") ∧
    (t.st ≠ s.st → i.mnemonic = "FX18") ∧
    t.key = s.key ∧ t.ready = s.ready ∧ t.mem.font = s.mem.font ∧ t.report = s.report ∧
    (t.draws ≠ s.draws → i.mnemonic = "CXNN")

/-- Who writes each variable register: the X of a load, an 8XY instruction, CXNN, FX07 or FX0A; V0..VX under FX65; and VF under the seven
instructions of R16's table, whatever their X is (R15, R16; 10_state.md summary). -/
def Obligations.EachRegisterHasItsWriters : Prop :=
  ∀ (i : Instr) (s t : State) (r : Reg), exec i s = .next t → t.reg r ≠ s.reg r →
    (r = fieldX (encode i) ∧ i.mnemonic ∈ ["6XNN", "7XNN", "8XY0", "8XY1", "8XY2", "8XY3", "8XY4", "8XY5", "8XY6", "8XY7", "8XYE", "CXNN",
      "FX07", "FX0A"]) ∨
    (r = 0xF ∧ i.mnemonic ∈ ["8XY4", "8XY5", "8XY6", "8XY7", "8XYE", "DXYN", "FX1E"]) ∨
    (r.toNat ≤ (fieldX (encode i)).toNat ∧ i.mnemonic = "FX65")

/-- The keypad is read by EX9E, EXA1 and FX0A alone (R26): any other instruction acts the same whatever the keys are.
The two executions have one draw count, so for CXNN the statement rests on the model's form of the draw (log 5), by which they draw one byte. -/
def Obligations.OtherInstructionsIgnoreTheKeypad : Prop :=
  ∀ (i : Instr) (s t : State) (key : Vector Bool 16), i.mnemonic ∉ ["EX9E", "EXA1", "FX0A"] → exec i s = .next t →
    exec i { s with key := key } = .next { t with key := key }

/-- The sound timer is read by no instruction (R22): the rest of the next state is the same whatever ST is, and ST is kept or, under FX18,
written with the same value. The two executions have one draw count, so for CXNN the statement rests on the model's form of the draw (log 5), by
which they draw one byte. -/
def Obligations.NoInstructionReadsTheSoundTimer : Prop :=
  ∀ (i : Instr) (s t : State) (st : Byte), exec i s = .next t →
    ∃ st', exec i { s with st := st } = .next { t with st := st' } ∧ (i.mnemonic = "FX18" → st' = t.st) ∧ (i.mnemonic ≠ "FX18" → st' = st)

/-! Reset and Load (70_reset_and_hazards.md). -/

/-- Reset puts every element at the value of R119, from whatever state. The redraw flag and the fault register are the spec's own choice (D21,
D8); the bytes of FONT are the parameter of the machine (D22). -/
def Obligations.ResetPutsEveryElementAtItsValue : Prop :=
  ∀ s : State, (∀ r : Reg, (reset s).reg r = 0) ∧ (reset s).pc = 0x200 ∧ (reset s).i = 0 ∧ (reset s).sp.val = 0 ∧
    (∀ j : Fin 16, (reset s).stack[j] = 0) ∧ (reset s).dt = 0 ∧ (reset s).st = 0 ∧
    (∀ a : Fin 80, (reset s).mem.read a.val = s.mem.font[a]) ∧ (∀ a : Nat, 80 ≤ a → (reset s).mem.read a = 0) ∧
    (∀ x y, pixel (reset s).fb x y = false) ∧ (∀ k : Fin 16, (reset s).key[k] = false) ∧ (reset s).redraw = false ∧
    (reset s).fault = none ∧ (reset s).ready = true

/-- Load of at most 3584 bytes succeeds: the state is that of Reset with the bytes at 0x200 on (R120, decision D33). -/
def Obligations.LoadPutsTheProgramAtItsPlace : Prop :=
  ∀ (bytes : List Byte) (s : State), bytes.length ≤ 3584 →
    (load bytes s).2 = .ok ∧
    (∀ (k : Nat) (h : k < bytes.length), (load bytes s).1.mem.read (0x200 + k) = bytes[k]) ∧
    (∀ a : Nat, a < 0x200 ∨ 0x200 + bytes.length ≤ a → (load bytes s).1.mem.read a = (reset s).mem.read a) ∧
    (load bytes s).1 = { reset s with mem := (load bytes s).1.mem }

/-- Load of more than 3584 bytes fails with the length and leaves the machine at a clean reset (R120, decision D33). -/
def Obligations.LoadOfTooManyBytesFailsAtACleanReset : Prop :=
  ∀ (bytes : List Byte) (s : State), 3584 < bytes.length → load bytes s = (reset s, .loadError bytes.length)

/-! Display (41_display.md). -/

/-- 00E0 (R62): every pixel 0, redraw true even when all were 0 already, pc + 2, and nothing else. -/
def Obligations.ClearScreen : Prop :=
  (∀ op : Word, op = 0x00E0 ↔ decode op = .instr .cls) ∧
  ∀ s : State, ∃ t, exec .cls s = .next t ∧
    (∀ x y, pixel t.fb x y = false) ∧ t.redraw = true ∧ PcPlus 2 s t ∧
    KeepsRegsBut [] s t ∧ t.i = s.i ∧ KeepsMemory s t ∧ KeepsStack s t ∧ KeepsTimers s t ∧ KeepsControl s t ∧ KeepsDraws s t

/-- DXYN (R59, R60, R61, R63): with x0 = VX and y0 = VY read before VF is written, sprite bit (r, c) is bit 7 - c of mem[I + r] and flips the
pixel ((x0 + c) mod 64, (y0 + r) mod 32) when it is 1; every other pixel is kept; VF is 1 when a set bit met a pixel that was 1 before the
instruction and 0 otherwise; redraw becomes true, pc + 2, nothing else. N = 0 draws nothing and needs no range. The wrap is the spec's decision
D15, the bit order its D16, from general knowledge (log 8). -/
def Obligations.DrawSpriteXorsTheWrappedBits : Prop :=
  Encodes 0xF000 0xD000 (fun op => .drw (fieldX op) (fieldY op) (fieldN op)) ∧
  ∀ (x y : Reg) (n : Rows) (s : State), n = 0 ∨ s.i.toNat + n.toNat ≤ 0x1000 →
    ∃ t, exec (.drw x y n) s = .next t ∧
      (∀ (r c : Nat) (px : Fin 64) (py : Fin 32), r < n.toNat → c < 8 →
        px.val = ((s.reg x).toNat + c) % 64 → py.val = ((s.reg y).toNat + r) % 32 →
        pixel t.fb px py = (pixel s.fb px py ^^ (s.mem.read (s.i.toNat + r)).getLsbD (7 - c))) ∧
      (∀ (px : Fin 64) (py : Fin 32),
        (∀ r c : Nat, r < n.toNat → c < 8 →
          ¬ (px.val = ((s.reg x).toNat + c) % 64 ∧ py.val = ((s.reg y).toNat + r) % 32)) →
        pixel t.fb px py = pixel s.fb px py) ∧
      ((∃ (r c : Nat) (px : Fin 64) (py : Fin 32), r < n.toNat ∧ c < 8 ∧ px.val = ((s.reg x).toNat + c) % 64 ∧
          py.val = ((s.reg y).toNat + r) % 32 ∧ (s.mem.read (s.i.toNat + r)).getLsbD (7 - c) = true ∧ pixel s.fb px py = true) →
        t.reg 0xF = 1) ∧
      ((∀ (r c : Nat) (px : Fin 64) (py : Fin 32), r < n.toNat → c < 8 → px.val = ((s.reg x).toNat + c) % 64 →
          py.val = ((s.reg y).toNat + r) % 32 → (s.mem.read (s.i.toNat + r)).getLsbD (7 - c) = true → pixel s.fb px py = false) →
        t.reg 0xF = 0) ∧
      t.redraw = true ∧ PcPlus 2 s t ∧ KeepsRegsBut [0xF] s t ∧ t.i = s.i ∧ KeepsMemory s t ∧ KeepsStack s t ∧ KeepsTimers s t ∧
      KeepsControl s t ∧ KeepsDraws s t

/-- DXYN whose sprite does not fit below 0x1000 takes the address fault at the first bad address and has no other effect (R63, R36, decisions
D2, D9). -/
def Obligations.DrawOutsideMemoryFaults : Prop :=
  ∀ (x y : Reg) (n : Rows) (s : State), n ≠ 0 → 0x1000 < s.i.toNat + n.toNat →
    exec (.drw x y n) s = .next { s with fault := some ⟨.addressFault, max s.i.toNat 0x1000, s.pc⟩ }

/-- Drawing one sprite twice at one place restores every pixel, and the second draw reports a collision when some sprite bit is set and the
first draw met none (the property of source §8 quoted in R63's example). X and Y are not F, because the first draw writes VF. -/
def Obligations.DrawingTwiceRestoresThePixels : Prop :=
  ∀ (x y : Reg) (n : Rows) (s : State), x ≠ 0xF → y ≠ 0xF → n = 0 ∨ s.i.toNat + n.toNat ≤ 0x1000 →
    ∃ t u, exec (.drw x y n) s = .next t ∧ exec (.drw x y n) t = .next u ∧
      (∀ px py, pixel u.fb px py = pixel s.fb px py) ∧
      (t.reg 0xF = 0 → (∃ r c : Nat, r < n.toNat ∧ c < 8 ∧ (s.mem.read (s.i.toNat + r)).getLsbD (7 - c) = true) → u.reg 0xF = 1)

/-! Control flow (42_control_flow.md). -/

/-- 1NNN (R68): pc is NNN with no further adjustment; nothing else changes. -/
def Obligations.JumpGoesToItsTarget : Prop :=
  Encodes 0xF000 0x1000 (fun op => .jp (fieldNNN op)) ∧
  ∀ (nnn : Addr12) (s : State), ∃ t, exec (.jp nnn) s = .next t ∧ t.pc.toNat = nnn.toNat ∧ ChangesOnlyPcAndRegs [] s t

/-- BNNN (R74): pc is NNN + V0, whatever op[11:8] holds, not masked to 12 bits (decision D26). -/
def Obligations.JumpV0AddsV0ToItsTarget : Prop :=
  Encodes 0xF000 0xB000 (fun op => .jpV0 (fieldNNN op)) ∧
  ∀ (nnn : Addr12) (s : State), ∃ t, exec (.jpV0 nnn) s = .next t ∧ t.pc.toNat = nnn.toNat + (s.reg 0).toNat ∧ ChangesOnlyPcAndRegs [] s t

/-- 2NNN (R69): with a free slot it writes its own address to slot sp, adds one to sp and goes to NNN; with 16 occupied it takes
`StackOverflow(pc)` and changes nothing else, which are the spec's decisions D7 and D9. -/
def Obligations.CallPushesItsOwnAddress : Prop :=
  Encodes 0xF000 0x2000 (fun op => .call (fieldNNN op)) ∧
  ∀ (nnn : Addr12) (s : State),
    (s.sp.val < 16 → ∃ t, exec (.call nnn) s = .next t ∧
      t.pc.toNat = nnn.toNat ∧ t.sp.val = s.sp.val + 1 ∧ (∀ j : Fin 16, t.stack[j] = if j.val = s.sp.val then s.pc else s.stack[j]) ∧
      KeepsRegsBut [] s t ∧ t.i = s.i ∧ KeepsMemory s t ∧ KeepsDisplay s t ∧ KeepsTimers s t ∧ KeepsControl s t ∧ KeepsDraws s t) ∧
    (s.sp.val = 16 → exec (.call nnn) s = .next { s with fault := some ⟨.stackOverflow, s.pc.toNat, s.pc⟩ })

/-- 00EE (R67): with an occupied slot it takes one off sp and goes to two past the address in the slot, which keeps its value; with none it
takes `StackUnderflow(pc)` and changes nothing else. The fault is the spec's decisions D7 and D9, the kept slot its D31. -/
def Obligations.ReturnGoesPastTheCall : Prop :=
  (∀ op : Word, op = 0x00EE ↔ decode op = .instr .ret) ∧
  ∀ s : State,
    (∀ h : 0 < s.sp.val, ∃ t, exec .ret s = .next t ∧
      t.pc.toNat = (s.stack[s.sp.val - 1].toNat + 2) % 0x10000 ∧ t.sp.val = s.sp.val - 1 ∧ t.stack = s.stack ∧
      KeepsRegsBut [] s t ∧ t.i = s.i ∧ KeepsMemory s t ∧ KeepsDisplay s t ∧ KeepsTimers s t ∧ KeepsControl s t ∧ KeepsDraws s t) ∧
    (s.sp.val = 0 → exec .ret s = .next { s with fault := some ⟨.stackUnderflow, s.pc.toNat, s.pc⟩ })

/-- A call followed at once by a return resumes after the call with the stack pointer as it was (R65, R66, R67, R69). -/
def Obligations.ReturnUndoesCall : Prop :=
  ∀ (nnn : Addr12) (s : State), s.sp.val < 16 →
    ∃ t u, exec (.call nnn) s = .next t ∧ exec .ret t = .next u ∧ PcPlus 2 s u ∧ u.sp = s.sp ∧
      (∀ j : Fin 16, j.val < s.sp.val → u.stack[j] = s.stack[j]) ∧ KeepsRegsBut [] s u ∧ KeepsMemory s u

/-- 3XNN and 4XNN (R70, R71): pc + 4 when VX equals NN, or when it does not, and else pc + 2; nothing else changes. -/
def Obligations.SkipsCompareWithAnImmediate : Prop :=
  Encodes 0xF000 0x3000 (fun op => .seImm (fieldX op) (fieldNN op)) ∧ Encodes 0xF000 0x4000 (fun op => .sneImm (fieldX op) (fieldNN op)) ∧
  ∀ (x : Reg) (nn : Byte) (s : State),
    (∃ t, exec (.seImm x nn) s = .next t ∧ PcPlus (if (s.reg x).toNat = nn.toNat then 4 else 2) s t ∧ ChangesOnlyPcAndRegs [] s t) ∧
    (∃ t, exec (.sneImm x nn) s = .next t ∧ PcPlus (if (s.reg x).toNat = nn.toNat then 2 else 4) s t ∧ ChangesOnlyPcAndRegs [] s t)

/-- 5XY0 and 9XY0 (R72, R73): pc + 4 when VX equals VY, or when it does not, and else pc + 2; nothing else changes. Every 5XYN and 9XYN with N
not 0 is undefined, which is the spec's decision D11. -/
def Obligations.SkipsCompareTwoRegisters : Prop :=
  Encodes 0xF00F 0x5000 (fun op => .seReg (fieldX op) (fieldY op)) ∧ Encodes 0xF00F 0x9000 (fun op => .sneReg (fieldX op) (fieldY op)) ∧
  (∀ op : Word, op.toNat / 0x1000 = 5 ∨ op.toNat / 0x1000 = 9 → op.toNat % 0x10 ≠ 0 → ∃ why, decode op = .undefined why) ∧
  ∀ (x y : Reg) (s : State),
    (∃ t, exec (.seReg x y) s = .next t ∧ PcPlus (if (s.reg x).toNat = (s.reg y).toNat then 4 else 2) s t ∧ ChangesOnlyPcAndRegs [] s t) ∧
    (∃ t, exec (.sneReg x y) s = .next t ∧ PcPlus (if (s.reg x).toNat = (s.reg y).toNat then 2 else 4) s t ∧ ChangesOnlyPcAndRegs [] s t)

/-! Loads and arithmetic (43_alu.md). -/

/-- 6XNN and 7XNN (R77, R78): VX becomes NN, or the sum modulo 256 with no flag; pc + 2; nothing else, VF included unless X is F. -/
def Obligations.ImmediateLoadAndAdd : Prop :=
  Encodes 0xF000 0x6000 (fun op => .ldImm (fieldX op) (fieldNN op)) ∧ Encodes 0xF000 0x7000 (fun op => .addImm (fieldX op) (fieldNN op)) ∧
  ∀ (x : Reg) (nn : Byte) (s : State),
    (∃ t, exec (.ldImm x nn) s = .next t ∧ t.reg x = nn ∧ PcPlus 2 s t ∧ ChangesOnlyPcAndRegs [x] s t) ∧
    (∃ t, exec (.addImm x nn) s = .next t ∧ (t.reg x).toNat = ((s.reg x).toNat + nn.toNat) % 256 ∧ PcPlus 2 s t ∧
      ChangesOnlyPcAndRegs [x] s t)

/-- 8XY0 (R79): VX becomes VY; pc + 2; VF is not written unless X is F; X = Y changes nothing but pc. -/
def Obligations.CopyRegister : Prop :=
  Encodes 0xF00F 0x8000 (fun op => .ldReg (fieldX op) (fieldY op)) ∧
  ∀ (x y : Reg) (s : State), ∃ t, exec (.ldReg x y) s = .next t ∧ t.reg x = s.reg y ∧ PcPlus 2 s t ∧ ChangesOnlyPcAndRegs [x] s t

/-- 8XY1, 8XY2 and 8XY3 (R80, R81, R82): each bit of VX; pc + 2; VF is not written unless X is F, which is the spec's decision D13. -/
def Obligations.LogicActsBitByBit : Prop :=
  Encodes 0xF00F 0x8001 (fun op => .orReg (fieldX op) (fieldY op)) ∧ Encodes 0xF00F 0x8002 (fun op => .andReg (fieldX op) (fieldY op)) ∧
  Encodes 0xF00F 0x8003 (fun op => .xorReg (fieldX op) (fieldY op)) ∧
  ∀ (x y : Reg) (s : State),
    (∃ t, exec (.orReg x y) s = .next t ∧ (∀ b : Nat, (t.reg x).getLsbD b = ((s.reg x).getLsbD b || (s.reg y).getLsbD b)) ∧
      PcPlus 2 s t ∧ ChangesOnlyPcAndRegs [x] s t) ∧
    (∃ t, exec (.andReg x y) s = .next t ∧ (∀ b : Nat, (t.reg x).getLsbD b = ((s.reg x).getLsbD b && (s.reg y).getLsbD b)) ∧
      PcPlus 2 s t ∧ ChangesOnlyPcAndRegs [x] s t) ∧
    (∃ t, exec (.xorReg x y) s = .next t ∧ (∀ b : Nat, (t.reg x).getLsbD b = ((s.reg x).getLsbD b ^^ (s.reg y).getLsbD b)) ∧
      PcPlus 2 s t ∧ ChangesOnlyPcAndRegs [x] s t)

/-- 8XY4 (R83): VX becomes the sum modulo 256 (lost when X is F), VF the carry; pc + 2; nothing else. That VF is written last is the spec's
decision D14. -/
def Obligations.AddSetsCarry : Prop :=
  Encodes 0xF00F 0x8004 (fun op => .addReg (fieldX op) (fieldY op)) ∧
  ∀ (x y : Reg) (s : State), ∃ t, exec (.addReg x y) s = .next t ∧
    (x ≠ 0xF → (t.reg x).toNat = ((s.reg x).toNat + (s.reg y).toNat) % 256) ∧
    (t.reg 0xF).toNat = (if (s.reg x).toNat + (s.reg y).toNat > 0xFF then 1 else 0) ∧
    PcPlus 2 s t ∧ ChangesOnlyPcAndRegs [x, 0xF] s t

/-- 8XY5 (R84): VX becomes VX - VY modulo 256 (lost when X is F), VF 1 when VX >= VY and else 0; pc + 2; nothing else. That equal operands give
VF = 1 is the spec's own inference, and that VF is written last its decision D14. -/
def Obligations.SubSetsNotBorrow : Prop :=
  Encodes 0xF00F 0x8005 (fun op => .subReg (fieldX op) (fieldY op)) ∧
  ∀ (x y : Reg) (s : State), ∃ t, exec (.subReg x y) s = .next t ∧
    (x ≠ 0xF → ((t.reg x).toNat : Int) = ((s.reg x).toNat - (s.reg y).toNat : Int) % 256) ∧
    (t.reg 0xF).toNat = (if (s.reg x).toNat ≥ (s.reg y).toNat then 1 else 0) ∧
    PcPlus 2 s t ∧ ChangesOnlyPcAndRegs [x, 0xF] s t

/-- 8XY7 (R86): VX becomes VY - VX modulo 256 (lost when X is F), VF 0 when VX > VY and else 1; pc + 2; nothing else. That VF is written last
is the spec's decision D14. -/
def Obligations.ReverseSubSetsNotBorrow : Prop :=
  Encodes 0xF00F 0x8007 (fun op => .subnReg (fieldX op) (fieldY op)) ∧
  ∀ (x y : Reg) (s : State), ∃ t, exec (.subnReg x y) s = .next t ∧
    (x ≠ 0xF → ((t.reg x).toNat : Int) = ((s.reg y).toNat - (s.reg x).toNat : Int) % 256) ∧
    (t.reg 0xF).toNat = (if (s.reg x).toNat > (s.reg y).toNat then 0 else 1) ∧
    PcPlus 2 s t ∧ ChangesOnlyPcAndRegs [x, 0xF] s t

/-- 8XY6 and 8XYE (R85, R87): VX is halved or doubled modulo 256 (lost when X is F), VF is its old bit 0 or 7; pc + 2; nothing else. That VX is
shifted and VY not read is the spec's decision D12, and that VF is written last its D14. -/
def Obligations.ShiftsGiveTheBitShiftedOut : Prop :=
  Encodes 0xF00F 0x8006 (fun op => .shrReg (fieldX op) (fieldY op)) ∧ Encodes 0xF00F 0x800E (fun op => .shlReg (fieldX op) (fieldY op)) ∧
  ∀ (x y : Reg) (s : State),
    (∃ t, exec (.shrReg x y) s = .next t ∧ (x ≠ 0xF → (t.reg x).toNat = (s.reg x).toNat / 2) ∧
      (t.reg 0xF).toNat = (s.reg x).toNat % 2 ∧ PcPlus 2 s t ∧ ChangesOnlyPcAndRegs [x, 0xF] s t) ∧
    (∃ t, exec (.shlReg x y) s = .next t ∧ (x ≠ 0xF → (t.reg x).toNat = (s.reg x).toNat * 2 % 256) ∧
      (t.reg 0xF).toNat = (s.reg x).toNat / 128 ∧ PcPlus 2 s t ∧ ChangesOnlyPcAndRegs [x, 0xF] s t)

/-- CXNN (R88): VX becomes the byte drawn AND NN, bit by bit, whatever the byte is; one byte is drawn; pc + 2; nothing else. The draw is a free
value (decision D23, log 5). -/
def Obligations.RandomIsMaskedByNN : Prop :=
  Encodes 0xF000 0xC000 (fun op => .rnd (fieldX op) (fieldNN op)) ∧
  ∀ (x : Reg) (nn : Byte) (s : State), ∃ t, exec (.rnd x nn) s = .next t ∧
    (∀ b : Nat, (t.reg x).getLsbD b = ((Config.randomByte s.draws).getLsbD b && nn.getLsbD b)) ∧ (nn = 0 → t.reg x = 0) ∧
    t.draws = s.draws + 1 ∧ PcPlus 2 s t ∧ KeepsRegsBut [x] s t ∧ t.i = s.i ∧ KeepsMemory s t ∧ KeepsStack s t ∧ KeepsDisplay s t ∧
    KeepsTimers s t ∧ KeepsControl s t

/-! Index register and block transfer (44_index_memory.md). -/

/-- ANNN (R90): I becomes NNN; pc + 2; nothing else. -/
def Obligations.LoadIndex : Prop :=
  Encodes 0xF000 0xA000 (fun op => .ldI (fieldNNN op)) ∧
  ∀ (nnn : Addr12) (s : State), ∃ t, exec (.ldI nnn) s = .next t ∧ t.i.toNat = nnn.toNat ∧ PcPlus 2 s t ∧
    KeepsRegsBut [] s t ∧ KeepsMemory s t ∧ KeepsStack s t ∧ KeepsDisplay s t ∧ KeepsTimers s t ∧ KeepsControl s t ∧ KeepsDraws s t

/-- FX1E (R91): I becomes I + VX modulo 2^16, VF 1 when the new I exceeds 0xFFF and else 0; pc + 2; nothing else. The wrap and the order of the
test are the spec's decisions D5 and D6, and that VF is written last its D14. -/
def Obligations.AddIndexSetsTheLimitFlag : Prop :=
  Encodes 0xF0FF 0xF01E (fun op => .addI (fieldX op)) ∧
  ∀ (x : Reg) (s : State), ∃ t, exec (.addI x) s = .next t ∧ t.i.toNat = (s.i.toNat + (s.reg x).toNat) % 0x10000 ∧
    (t.reg 0xF).toNat = (if (s.i.toNat + (s.reg x).toNat) % 0x10000 > 0xFFF then 1 else 0) ∧ PcPlus 2 s t ∧
    KeepsRegsBut [0xF] s t ∧ KeepsMemory s t ∧ KeepsStack s t ∧ KeepsDisplay s t ∧ KeepsTimers s t ∧ KeepsControl s t ∧ KeepsDraws s t

/-- FX29 (R92): I becomes VX * 5, not masked (decision D25); pc + 2; nothing else. -/
def Obligations.GlyphAddressIsFiveTimesVX : Prop :=
  Encodes 0xF0FF 0xF029 (fun op => .ldF (fieldX op)) ∧
  ∀ (x : Reg) (s : State), ∃ t, exec (.ldF x) s = .next t ∧ t.i.toNat = (s.reg x).toNat * 5 ∧ PcPlus 2 s t ∧
    KeepsRegsBut [] s t ∧ KeepsMemory s t ∧ KeepsStack s t ∧ KeepsDisplay s t ∧ KeepsTimers s t ∧ KeepsControl s t ∧ KeepsDraws s t

/-- FX33 (R93): with I + 2 inside memory, the hundreds, tens and ones of VX are stored at I, I+1 and I+2 and every other byte is kept, I is
unchanged, pc + 2; else the address fault at max(I, 0x1000) and nothing else, which are the spec's decisions D2 and D9. The
memory is in its canonical form, as `Inv` says. -/
def Obligations.BcdStoresTheThreeDigits : Prop :=
  Encodes 0xF0FF 0xF033 (fun op => .ldB (fieldX op)) ∧
  ∀ (x : Reg) (s : State), s.mem.wf = true →
    (s.i.toNat + 2 ≤ 0xFFF → ∃ t, exec (.ldB x) s = .next t ∧
      (t.mem.read s.indexAddress).toNat = (s.reg x).toNat / 100 ∧
      (t.mem.read (s.indexAddress + 1)).toNat = (s.reg x).toNat / 10 % 10 ∧
      (t.mem.read (s.indexAddress + 2)).toNat = (s.reg x).toNat % 10 ∧
      KeepsMemoryOutside s.indexAddress 3 s t ∧ t.mem.wf = true ∧ t.i = s.i ∧ PcPlus 2 s t ∧
      KeepsRegsBut [] s t ∧ KeepsStack s t ∧ KeepsDisplay s t ∧ KeepsTimers s t ∧ KeepsControl s t ∧ KeepsDraws s t) ∧
    (0xFFF < s.i.toNat + 2 → exec (.ldB x) s = .next { s with fault := some ⟨.addressFault, max s.i.toNat 0x1000, s.pc⟩ })

/-- FX55 (R94): with I + X inside memory, V0..VX are stored at I..I+X and every other byte is kept, I moves to I + X + 1, pc + 2; else the
address fault at max(I, 0x1000) and nothing else, which are the spec's decisions D2 and D9. The memory is in its canonical form, as `Inv` says. -/
def Obligations.StoreRegistersAtIndex : Prop :=
  Encodes 0xF0FF 0xF055 (fun op => .ldStore (fieldX op)) ∧
  ∀ (x : Reg) (s : State), s.mem.wf = true →
    (s.i.toNat + x.toNat ≤ 0xFFF → ∃ t, exec (.ldStore x) s = .next t ∧
      (∀ r : Reg, r.toNat ≤ x.toNat → t.mem.read (s.indexAddress + r.toNat) = s.reg r) ∧
      KeepsMemoryOutside s.indexAddress (x.toNat + 1) s t ∧ t.mem.wf = true ∧ t.i.toNat = s.i.toNat + x.toNat + 1 ∧ PcPlus 2 s t ∧
      KeepsRegsBut [] s t ∧ KeepsStack s t ∧ KeepsDisplay s t ∧ KeepsTimers s t ∧ KeepsControl s t ∧ KeepsDraws s t) ∧
    (0xFFF < s.i.toNat + x.toNat → exec (.ldStore x) s = .next { s with fault := some ⟨.addressFault, max s.i.toNat 0x1000, s.pc⟩ })

/-- FX65 (R95): with I + X inside memory, V0..VX are loaded from I..I+X and the registers above X are kept, I moves to I + X + 1, pc + 2; else
the address fault at max(I, 0x1000) and nothing else, which are the spec's decisions D2 and D9. -/
def Obligations.LoadRegistersFromIndex : Prop :=
  Encodes 0xF0FF 0xF065 (fun op => .ldLoad (fieldX op)) ∧
  ∀ (x : Reg) (s : State),
    (s.i.toNat + x.toNat ≤ 0xFFF → ∃ t, exec (.ldLoad x) s = .next t ∧
      (∀ r : Reg, r.toNat ≤ x.toNat → t.reg r = s.mem.read (s.i.toNat + r.toNat)) ∧ (∀ r : Reg, x.toNat < r.toNat → t.reg r = s.reg r) ∧
      t.i.toNat = s.i.toNat + x.toNat + 1 ∧ PcPlus 2 s t ∧
      KeepsMemory s t ∧ KeepsStack s t ∧ KeepsDisplay s t ∧ KeepsTimers s t ∧ KeepsControl s t ∧ KeepsDraws s t) ∧
    (0xFFF < s.i.toNat + x.toNat → exec (.ldLoad x) s = .next { s with fault := some ⟨.addressFault, max s.i.toNat 0x1000, s.pc⟩ })

/-- Registers stored by FX55 and loaded by FX65 from the same address, with anything in the registers in between, are restored (source §8, as
R95's example reads it: I is set back). -/
def Obligations.LoadUndoesStore : Prop :=
  ∀ (x : Reg) (s : State) (v : Vector Byte 16), s.mem.wf = true → s.i.toNat + x.toNat ≤ 0xFFF →
    ∃ t u, exec (.ldStore x) s = .next t ∧ exec (.ldLoad x) { t with i := s.i, v := v } = .next u ∧
      (∀ r : Reg, r.toNat ≤ x.toNat → u.reg r = s.reg r) ∧ u.i = t.i

/-! Keypad and timers (45_keys_timers.md). -/

/-- EX9E and EXA1 (R97, R98): with VX at most 0xF, a skip on key VX pressed or not pressed, and nothing else, the key itself included; else
`KeyIndexFault(VX)` and nothing else (R96, decision D17). -/
def Obligations.KeySkipsReadTheKeyOfVX : Prop :=
  Encodes 0xF0FF 0xE09E (fun op => .skp (fieldX op)) ∧ Encodes 0xF0FF 0xE0A1 (fun op => .sknp (fieldX op)) ∧
  ∀ (x : Reg) (s : State),
    (∀ k : Fin 16, (s.reg x).toNat = k.val →
      (∃ t, exec (.skp x) s = .next t ∧ PcPlus (if s.key[k] = true then 4 else 2) s t ∧ ChangesOnlyPcAndRegs [] s t) ∧
      (∃ t, exec (.sknp x) s = .next t ∧ PcPlus (if s.key[k] = true then 2 else 4) s t ∧ ChangesOnlyPcAndRegs [] s t)) ∧
    (0xF < (s.reg x).toNat →
      exec (.skp x) s = .next { s with fault := some ⟨.keyIndexFault, (s.reg x).toNat, s.pc⟩ } ∧
      exec (.sknp x) s = .next { s with fault := some ⟨.keyIndexFault, (s.reg x).toNat, s.pc⟩ })

/-- FX0A (R99): with a key pressed, VX becomes the least pressed index and pc + 2, nothing else; with none pressed nothing at all changes and pc
stays. Poll-and-return and the least index are the spec's decision D18. -/
def Obligations.WaitKeyTakesTheLeastPressedKey : Prop :=
  Encodes 0xF0FF 0xF00A (fun op => .ldVK (fieldX op)) ∧
  ∀ (x : Reg) (s : State),
    (∀ k : Fin 16, s.key[k] = true → (∀ j : Fin 16, j < k → s.key[j] = false) →
      ∃ t, exec (.ldVK x) s = .next t ∧ (t.reg x).toNat = k.val ∧ PcPlus 2 s t ∧ ChangesOnlyPcAndRegs [x] s t) ∧
    ((∀ k : Fin 16, s.key[k] = false) → exec (.ldVK x) s = .next s)

/-- FX07 (R100): VX becomes DT as it was before this step's tick; pc + 2; nothing else. Over the whole step DT is then one less. -/
def Obligations.ReadDelayTimerBeforeItsTick : Prop :=
  Encodes 0xF0FF 0xF007 (fun op => .ldVDt (fieldX op)) ∧
  (∀ (x : Reg) (s : State), ∃ t, exec (.ldVDt x) s = .next t ∧ t.reg x = s.dt ∧ PcPlus 2 s t ∧ ChangesOnlyPcAndRegs [x] s t) ∧
  (∀ (x : Reg) (s : State), s.running → s.pc.toNat ≤ 0xFFE → decode (fetchWord s) = .instr (.ldVDt x) →
    ∃ t, step s = .next t ∧ t.reg x = s.dt ∧ t.dt.toNat = s.dt.toNat - 1)

/-- FX15 and FX18 (R101, R102): DT or ST becomes VX, before the tick; pc + 2; nothing else. That ST is never ticked is the spec's decision D19. -/
def Obligations.TimersAreSetFromVX : Prop :=
  Encodes 0xF0FF 0xF015 (fun op => .ldDt (fieldX op)) ∧ Encodes 0xF0FF 0xF018 (fun op => .ldSt (fieldX op)) ∧
  ∀ (x : Reg) (s : State),
    (∃ t, exec (.ldDt x) s = .next t ∧ t.dt = s.reg x ∧ t.st = s.st ∧ PcPlus 2 s t ∧ KeepsRegsBut [] s t ∧ t.i = s.i ∧ KeepsMemory s t ∧
      KeepsStack s t ∧ KeepsDisplay s t ∧ KeepsControl s t ∧ KeepsDraws s t) ∧
    (∃ t, exec (.ldSt x) s = .next t ∧ t.st = s.reg x ∧ t.dt = s.dt ∧ PcPlus 2 s t ∧ KeepsRegsBut [] s t ∧ t.i = s.i ∧ KeepsMemory s t ∧
      KeepsStack s t ∧ KeepsDisplay s t ∧ KeepsControl s t ∧ KeepsDraws s t)

/-- Over a whole step ST changes only when the step executes FX18, and then to VX (R113, decision D19). -/
def Obligations.StepKeepsTheSoundTimer : Prop :=
  ∀ s t : State, step s = .next t →
    (∀ x, s.running → s.pc.toNat ≤ 0xFFE → decode (fetchWord s) = .instr (.ldSt x) → t.st = s.reg x) ∧
    (t.st ≠ s.st → ∃ x, decode (fetchWord s) = .instr (.ldSt x))

/-- The host's word placed by `withFetchWord` is the word the next step fetches, from every state with a canonical memory, and the block is then
running. This is about the model's own test entry, not about the spec. -/
def Obligations.PlacedWordIsFetched : Prop :=
  ∀ (s : State) (w : Nat), s.mem.wf = true → w < 0x10000 →
    (s.withFetchWord 16 w).running ∧ (s.withFetchWord 16 w).pc.toNat ≤ 0xFFE ∧ (fetchWord (s.withFetchWord 16 w)).toNat = w ∧
    (s.running → s.pc.toNat ≤ 0xFFE → s.withFetchWord 16 w = { s with mem := (s.withFetchWord 16 w).mem })
end

