-- ==== Sys2Proof/Laws/Memory.lean ====
section
/-! SUPPORT. What the memory operations do (spec 20_memory.md R41, R43): a read after a write, a write elsewhere, blocks of bytes, and that
every write keeps the canonical form. -/

namespace Sys2Proof.Machine

@[simp] theorem write_font (m : Memory) (a : Nat) (v : Byte) : (m.write a v).font = m.font := rfl

@[simp] theorem unlisted_write (m : Memory) (a b : Nat) (v : Byte) : (m.write a v).unlisted b = m.unlisted b := by
  simp [Memory.unlisted]

@[simp] theorem storeBytes_font (m : Memory) (a : Nat) (bs : List Byte) : (m.storeBytes a bs).font = m.font := by
  induction bs generalizing m a with
  | nil => rfl
  | cons b bs ih => simp [Memory.storeBytes, ih]

/-- Another address finds the same cell after a cell is put. -/
theorem lookupCell_putCell_other (a b : Nat) (v u : Byte) (cells : List Host.Cell) (h : b ≠ a) :
    lookupCell (putCell a v u cells) b = lookupCell cells b := by
  induction cells with
  | nil => unfold putCell; split <;> simp [lookupCell, h]
  | cons c cells ih =>
    obtain ⟨k, w⟩ := c
    unfold putCell
    split
    · split <;> simp [lookupCell, h]
    · split
      · next hk => subst hk; split <;> simp [lookupCell, h]
      · simp [lookupCell, ih]

/-- In a canonical list no cell lies below its bound. -/
theorem lookupCell_below (m : Memory) (lo a : Nat) (cells : List Host.Cell) (h : m.wfFrom lo cells = true) (ha : a < lo) :
    lookupCell cells a = none := by
  induction cells generalizing lo with
  | nil => rfl
  | cons c cells ih =>
    obtain ⟨k, w⟩ := c
    simp only [Memory.wfFrom, Bool.and_eq_true, decide_eq_true_eq] at h
    have : a ≠ k := by omega
    simp [lookupCell, this, ih (k + 1) h.2 (by omega)]

/-- In a canonical list the address just written finds the byte, listed or not. -/
theorem lookupCell_putCell_same (m : Memory) (lo a : Nat) (v : Byte) (cells : List Host.Cell) (h : m.wfFrom lo cells = true) :
    (lookupCell (putCell a v (m.unlisted a) cells) a).getD (m.unlisted a) = v := by
  induction cells generalizing lo with
  | nil => unfold putCell; split <;> simp_all [lookupCell]
  | cons c cells ih =>
    obtain ⟨k, w⟩ := c
    simp only [Memory.wfFrom, Bool.and_eq_true, decide_eq_true_eq] at h
    have below : a < k + 1 → lookupCell cells a = none := lookupCell_below m (k + 1) a cells h.2
    unfold putCell
    split
    · next hk =>
      have hne : a ≠ k := by omega
      have hb := below (by omega)
      split <;> simp_all [lookupCell]
    · split
      · next hk =>
        have hb := below (by omega)
        subst hk; split <;> simp_all [lookupCell]
      · next hk => simpa [lookupCell, hk] using ih (k + 1) h.2

theorem read_write_other (m : Memory) (a b : Nat) (v : Byte) (h : b ≠ a) : (m.write a v).read b = m.read b := by
  unfold Memory.read
  rw [unlisted_write]
  have : lookupCell (m.write a v).cells b = lookupCell m.cells b := by
    show lookupCell (if a < 0x1000 then _ else _) b = _
    split
    · exact lookupCell_putCell_other a b v _ m.cells h
    · rfl
  rw [this]

theorem read_write_same (m : Memory) (a : Nat) (v : Byte) (hm : m.wf = true) (ha : a < 0x1000) : (m.write a v).read a = v := by
  unfold Memory.read
  rw [unlisted_write, show (m.write a v).cells = putCell a v (m.unlisted a) m.cells from if_pos ha]
  exact lookupCell_putCell_same m 0 a v m.cells hm

/-- The canonical form depends on the cells and on FONT alone. -/
theorem wfFrom_congr (m n : Memory) (h : m.font = n.font) (lo : Nat) (cells : List Host.Cell) : m.wfFrom lo cells = n.wfFrom lo cells := by
  have hu : ∀ a, m.unlisted a = n.unlisted a := fun a => by simp [Memory.unlisted, h]
  induction cells generalizing lo with
  | nil => rfl
  | cons c cells ih => simp [Memory.wfFrom, hu, ih]

theorem wfFrom_mono (m : Memory) (lo lo' : Nat) (cells : List Host.Cell) (hle : lo' ≤ lo) (h : m.wfFrom lo cells = true) :
    m.wfFrom lo' cells = true := by
  cases cells with
  | nil => rfl
  | cons c cells =>
    simp only [Memory.wfFrom, Bool.and_eq_true, decide_eq_true_eq] at h ⊢
    exact ⟨⟨⟨by omega, h.1.1.2⟩, h.1.2⟩, h.2⟩

theorem wfFrom_putCell (m : Memory) (lo a : Nat) (v : Byte) (cells : List Host.Cell) (h : m.wfFrom lo cells = true) (hlo : lo ≤ a)
    (ha : a < 0x1000) : m.wfFrom lo (putCell a v (m.unlisted a) cells) = true := by
  induction cells generalizing lo with
  | nil => unfold putCell; split <;> simp_all [Memory.wfFrom]
  | cons c cells ih =>
    obtain ⟨k, w⟩ := c
    simp only [Memory.wfFrom, Bool.and_eq_true, decide_eq_true_eq] at h
    unfold putCell
    split
    · split <;> simp_all [Memory.wfFrom]
    · split
      · next hk =>
        subst hk
        split
        · exact wfFrom_mono m _ _ _ (by omega) h.2
        · simp_all [Memory.wfFrom]
      · simp only [Memory.wfFrom, Bool.and_eq_true, decide_eq_true_eq]
        exact ⟨h.1, ih (k + 1) h.2 (by omega)⟩

/-- A write keeps the canonical form. -/
theorem wf_write (m : Memory) (a : Nat) (v : Byte) (h : m.wf = true) : (m.write a v).wf = true := by
  unfold Memory.wf
  rw [wfFrom_congr _ m (write_font m a v)]
  show m.wfFrom 0 (if a < 0x1000 then _ else _) = true
  split
  · next ha => exact wfFrom_putCell m 0 a v m.cells h (Nat.zero_le a) ha
  · exact h

/-- Storing a block keeps the canonical form. -/
theorem wf_storeBytes (m : Memory) (a : Nat) (bs : List Byte) (h : m.wf = true) : (m.storeBytes a bs).wf = true := by
  induction bs generalizing m a with
  | nil => exact h
  | cons b bs ih => exact ih _ _ (wf_write m a b h)

/-- The memory after Reset, whatever FONT is, is in its canonical form. -/
@[simp] theorem wf_reset (font : Vector Byte Config.fontSize) : (Memory.mk font []).wf = true := rfl

theorem read_storeBytes_outside (m : Memory) (a b : Nat) (bs : List Byte) (h : b < a ∨ a + bs.length ≤ b) :
    (m.storeBytes a bs).read b = m.read b := by
  induction bs generalizing m a with
  | nil => rfl
  | cons v bs ih =>
    simp only [List.length_cons] at h
    rw [Memory.storeBytes, ih _ _ (by omega), read_write_other m a b v (by omega)]

theorem read_storeBytes_inside (m : Memory) (a k : Nat) (bs : List Byte) (hm : m.wf = true) (hk : k < bs.length)
    (ha : a + bs.length ≤ 0x1000) : (m.storeBytes a bs).read (a + k) = bs[k] := by
  induction bs generalizing m a k with
  | nil => simp at hk
  | cons v bs ih =>
    simp only [List.length_cons] at hk ha
    rw [Memory.storeBytes]
    cases k with
    | zero =>
      rw [read_storeBytes_outside _ _ _ _ (by omega)]
      exact read_write_same m a v hm (by omega)
    | succ k =>
      rw [show a + (k + 1) = a + 1 + k by omega, ih _ _ _ (wf_write m a v hm) (by omega) (by omega)]
      rfl

@[simp] theorem length_readBytes (m : Memory) (a n : Nat) : (m.readBytes a n).length = n := by
  induction n generalizing a with
  | zero => rfl
  | succ n ih => simp [Memory.readBytes, ih]

theorem getElem_readBytes (m : Memory) (a n k : Nat) (h : k < (m.readBytes a n).length) : (m.readBytes a n)[k] = m.read (a + k) := by
  induction n generalizing a k with
  | zero => simp [Memory.readBytes] at h
  | succ n ih =>
    cases k with
    | zero => rfl
    | succ k =>
      simp only [Memory.readBytes, List.getElem_cons_succ]
      rw [ih, show a + 1 + k = a + (k + 1) by omega]

/-- `CheckRange` finds nothing exactly when the range is empty or ends at 0xFFF or below (R13, R36). -/
theorem lowestOutOfRange_none (a n : Nat) : lowestOutOfRange a n = none ↔ n = 0 ∨ a + n ≤ 0x1000 := by
  simp only [lowestOutOfRange, Config.memSize, List.find?_eq_none, List.mem_map, List.mem_range, decide_eq_true_eq, forall_exists_index, and_imp,
    forall_apply_eq_imp_iff₂]
  constructor
  · intro h
    by_cases hn : n = 0
    · exact .inl hn
    · have := h (n - 1) (by omega); omega
  · intro h k hk; omega

/-- The address `CheckRange` reports: the first of the range, or 0x1000 where the range starts inside memory (R49, R63). -/
theorem lowestOutOfRange_some (a n b : Nat) :
    lowestOutOfRange a n = some b ↔ (n ≠ 0 ∧ 0x1000 < a + n) ∧ b = max a 0x1000 := by
  have found : ∀ b, lowestOutOfRange a n = some b → b = max a 0x1000 := by
    intro b h
    simp only [lowestOutOfRange, Config.memSize, List.find?_map, Option.map_eq_some_iff] at h
    obtain ⟨k, hk, rfl⟩ := h
    simp only [List.find?_range_eq_some, Function.comp_apply, decide_eq_true_eq, Bool.not_eq_eq_eq_not, Bool.not_true, decide_eq_false_iff_not] at hk
    obtain ⟨h1, h2, h3⟩ := hk
    rcases Nat.eq_zero_or_pos k with h0 | h0
    · omega
    · have := h3 (k - 1) (by omega); omega
  constructor
  · intro h
    refine ⟨?_, found b h⟩
    have : lowestOutOfRange a n ≠ none := by simp [h]
    rw [Ne, lowestOutOfRange_none] at this
    omega
  · rintro ⟨h, rfl⟩
    cases hb : lowestOutOfRange a n with
    | none => rw [lowestOutOfRange_none] at hb; omega
    | some b => rw [found b hb]

end Sys2Proof.Machine
end

