-- ==== Sys2Proof/Laws/State.lean ====
section
/-! SUPPORT. One lemma for each field after each update of the state, so that no later proof unfolds a record update; and what reading a
register gives after each of them. -/

namespace Sys2Proof.Machine

/-! `setReg`. -/

@[simp] theorem setReg_pc (s : State) (x : Reg) (b : Byte) : (s.setReg x b).pc = s.pc := rfl
@[simp] theorem setReg_i (s : State) (x : Reg) (b : Byte) : (s.setReg x b).i = s.i := rfl
@[simp] theorem setReg_stack (s : State) (x : Reg) (b : Byte) : (s.setReg x b).stack = s.stack := rfl
@[simp] theorem setReg_sp (s : State) (x : Reg) (b : Byte) : (s.setReg x b).sp = s.sp := rfl
@[simp] theorem setReg_dt (s : State) (x : Reg) (b : Byte) : (s.setReg x b).dt = s.dt := rfl
@[simp] theorem setReg_st (s : State) (x : Reg) (b : Byte) : (s.setReg x b).st = s.st := rfl
@[simp] theorem setReg_mem (s : State) (x : Reg) (b : Byte) : (s.setReg x b).mem = s.mem := rfl
@[simp] theorem setReg_fb (s : State) (x : Reg) (b : Byte) : (s.setReg x b).fb = s.fb := rfl
@[simp] theorem setReg_key (s : State) (x : Reg) (b : Byte) : (s.setReg x b).key = s.key := rfl
@[simp] theorem setReg_redraw (s : State) (x : Reg) (b : Byte) : (s.setReg x b).redraw = s.redraw := rfl
@[simp] theorem setReg_fault (s : State) (x : Reg) (b : Byte) : (s.setReg x b).fault = s.fault := rfl
@[simp] theorem setReg_ready (s : State) (x : Reg) (b : Byte) : (s.setReg x b).ready = s.ready := rfl
@[simp] theorem setReg_report (s : State) (x : Reg) (b : Byte) : (s.setReg x b).report = s.report := rfl
@[simp] theorem setReg_draws (s : State) (x : Reg) (b : Byte) : (s.setReg x b).draws = s.draws := rfl

/-! `setFlag`. -/

@[simp] theorem setFlag_pc (s : State) (c : Bool) : (s.setFlag c).pc = s.pc := rfl
@[simp] theorem setFlag_i (s : State) (c : Bool) : (s.setFlag c).i = s.i := rfl
@[simp] theorem setFlag_stack (s : State) (c : Bool) : (s.setFlag c).stack = s.stack := rfl
@[simp] theorem setFlag_sp (s : State) (c : Bool) : (s.setFlag c).sp = s.sp := rfl
@[simp] theorem setFlag_dt (s : State) (c : Bool) : (s.setFlag c).dt = s.dt := rfl
@[simp] theorem setFlag_st (s : State) (c : Bool) : (s.setFlag c).st = s.st := rfl
@[simp] theorem setFlag_mem (s : State) (c : Bool) : (s.setFlag c).mem = s.mem := rfl
@[simp] theorem setFlag_fb (s : State) (c : Bool) : (s.setFlag c).fb = s.fb := rfl
@[simp] theorem setFlag_key (s : State) (c : Bool) : (s.setFlag c).key = s.key := rfl
@[simp] theorem setFlag_redraw (s : State) (c : Bool) : (s.setFlag c).redraw = s.redraw := rfl
@[simp] theorem setFlag_fault (s : State) (c : Bool) : (s.setFlag c).fault = s.fault := rfl
@[simp] theorem setFlag_ready (s : State) (c : Bool) : (s.setFlag c).ready = s.ready := rfl
@[simp] theorem setFlag_report (s : State) (c : Bool) : (s.setFlag c).report = s.report := rfl
@[simp] theorem setFlag_draws (s : State) (c : Bool) : (s.setFlag c).draws = s.draws := rfl

/-! `setRegFlag`. -/

@[simp] theorem setRegFlag_pc (s : State) (x : Reg) (b : Byte) (c : Bool) : (s.setRegFlag x b c).pc = s.pc := rfl
@[simp] theorem setRegFlag_i (s : State) (x : Reg) (b : Byte) (c : Bool) : (s.setRegFlag x b c).i = s.i := rfl
@[simp] theorem setRegFlag_stack (s : State) (x : Reg) (b : Byte) (c : Bool) : (s.setRegFlag x b c).stack = s.stack := rfl
@[simp] theorem setRegFlag_sp (s : State) (x : Reg) (b : Byte) (c : Bool) : (s.setRegFlag x b c).sp = s.sp := rfl
@[simp] theorem setRegFlag_dt (s : State) (x : Reg) (b : Byte) (c : Bool) : (s.setRegFlag x b c).dt = s.dt := rfl
@[simp] theorem setRegFlag_st (s : State) (x : Reg) (b : Byte) (c : Bool) : (s.setRegFlag x b c).st = s.st := rfl
@[simp] theorem setRegFlag_mem (s : State) (x : Reg) (b : Byte) (c : Bool) : (s.setRegFlag x b c).mem = s.mem := rfl
@[simp] theorem setRegFlag_fb (s : State) (x : Reg) (b : Byte) (c : Bool) : (s.setRegFlag x b c).fb = s.fb := rfl
@[simp] theorem setRegFlag_key (s : State) (x : Reg) (b : Byte) (c : Bool) : (s.setRegFlag x b c).key = s.key := rfl
@[simp] theorem setRegFlag_redraw (s : State) (x : Reg) (b : Byte) (c : Bool) : (s.setRegFlag x b c).redraw = s.redraw := rfl
@[simp] theorem setRegFlag_fault (s : State) (x : Reg) (b : Byte) (c : Bool) : (s.setRegFlag x b c).fault = s.fault := rfl
@[simp] theorem setRegFlag_ready (s : State) (x : Reg) (b : Byte) (c : Bool) : (s.setRegFlag x b c).ready = s.ready := rfl
@[simp] theorem setRegFlag_report (s : State) (x : Reg) (b : Byte) (c : Bool) : (s.setRegFlag x b c).report = s.report := rfl
@[simp] theorem setRegFlag_draws (s : State) (x : Reg) (b : Byte) (c : Bool) : (s.setRegFlag x b c).draws = s.draws := rfl

/-! `advance`. -/

@[simp] theorem advance_v (s : State) : (s.advance).v = s.v := rfl
@[simp] theorem advance_i (s : State) : (s.advance).i = s.i := rfl
@[simp] theorem advance_stack (s : State) : (s.advance).stack = s.stack := rfl
@[simp] theorem advance_sp (s : State) : (s.advance).sp = s.sp := rfl
@[simp] theorem advance_dt (s : State) : (s.advance).dt = s.dt := rfl
@[simp] theorem advance_st (s : State) : (s.advance).st = s.st := rfl
@[simp] theorem advance_mem (s : State) : (s.advance).mem = s.mem := rfl
@[simp] theorem advance_fb (s : State) : (s.advance).fb = s.fb := rfl
@[simp] theorem advance_key (s : State) : (s.advance).key = s.key := rfl
@[simp] theorem advance_redraw (s : State) : (s.advance).redraw = s.redraw := rfl
@[simp] theorem advance_fault (s : State) : (s.advance).fault = s.fault := rfl
@[simp] theorem advance_ready (s : State) : (s.advance).ready = s.ready := rfl
@[simp] theorem advance_report (s : State) : (s.advance).report = s.report := rfl
@[simp] theorem advance_draws (s : State) : (s.advance).draws = s.draws := rfl

/-! `jump`. -/

@[simp] theorem jump_v (s : State) (a : Word) : (s.jump a).v = s.v := rfl
@[simp] theorem jump_i (s : State) (a : Word) : (s.jump a).i = s.i := rfl
@[simp] theorem jump_stack (s : State) (a : Word) : (s.jump a).stack = s.stack := rfl
@[simp] theorem jump_sp (s : State) (a : Word) : (s.jump a).sp = s.sp := rfl
@[simp] theorem jump_dt (s : State) (a : Word) : (s.jump a).dt = s.dt := rfl
@[simp] theorem jump_st (s : State) (a : Word) : (s.jump a).st = s.st := rfl
@[simp] theorem jump_mem (s : State) (a : Word) : (s.jump a).mem = s.mem := rfl
@[simp] theorem jump_fb (s : State) (a : Word) : (s.jump a).fb = s.fb := rfl
@[simp] theorem jump_key (s : State) (a : Word) : (s.jump a).key = s.key := rfl
@[simp] theorem jump_redraw (s : State) (a : Word) : (s.jump a).redraw = s.redraw := rfl
@[simp] theorem jump_fault (s : State) (a : Word) : (s.jump a).fault = s.fault := rfl
@[simp] theorem jump_ready (s : State) (a : Word) : (s.jump a).ready = s.ready := rfl
@[simp] theorem jump_report (s : State) (a : Word) : (s.jump a).report = s.report := rfl
@[simp] theorem jump_draws (s : State) (a : Word) : (s.jump a).draws = s.draws := rfl

/-! `skipIf`. -/

@[simp] theorem skipIf_v (s : State) (c : Bool) : (s.skipIf c).v = s.v := rfl
@[simp] theorem skipIf_i (s : State) (c : Bool) : (s.skipIf c).i = s.i := rfl
@[simp] theorem skipIf_stack (s : State) (c : Bool) : (s.skipIf c).stack = s.stack := rfl
@[simp] theorem skipIf_sp (s : State) (c : Bool) : (s.skipIf c).sp = s.sp := rfl
@[simp] theorem skipIf_dt (s : State) (c : Bool) : (s.skipIf c).dt = s.dt := rfl
@[simp] theorem skipIf_st (s : State) (c : Bool) : (s.skipIf c).st = s.st := rfl
@[simp] theorem skipIf_mem (s : State) (c : Bool) : (s.skipIf c).mem = s.mem := rfl
@[simp] theorem skipIf_fb (s : State) (c : Bool) : (s.skipIf c).fb = s.fb := rfl
@[simp] theorem skipIf_key (s : State) (c : Bool) : (s.skipIf c).key = s.key := rfl
@[simp] theorem skipIf_redraw (s : State) (c : Bool) : (s.skipIf c).redraw = s.redraw := rfl
@[simp] theorem skipIf_fault (s : State) (c : Bool) : (s.skipIf c).fault = s.fault := rfl
@[simp] theorem skipIf_ready (s : State) (c : Bool) : (s.skipIf c).ready = s.ready := rfl
@[simp] theorem skipIf_report (s : State) (c : Bool) : (s.skipIf c).report = s.report := rfl
@[simp] theorem skipIf_draws (s : State) (c : Bool) : (s.skipIf c).draws = s.draws := rfl

/-! `answer`. -/

@[simp] theorem answer_v (s : State) (r : Report) : (s.answer r).v = s.v := rfl
@[simp] theorem answer_pc (s : State) (r : Report) : (s.answer r).pc = s.pc := rfl
@[simp] theorem answer_i (s : State) (r : Report) : (s.answer r).i = s.i := rfl
@[simp] theorem answer_stack (s : State) (r : Report) : (s.answer r).stack = s.stack := rfl
@[simp] theorem answer_sp (s : State) (r : Report) : (s.answer r).sp = s.sp := rfl
@[simp] theorem answer_dt (s : State) (r : Report) : (s.answer r).dt = s.dt := rfl
@[simp] theorem answer_st (s : State) (r : Report) : (s.answer r).st = s.st := rfl
@[simp] theorem answer_mem (s : State) (r : Report) : (s.answer r).mem = s.mem := rfl
@[simp] theorem answer_fb (s : State) (r : Report) : (s.answer r).fb = s.fb := rfl
@[simp] theorem answer_key (s : State) (r : Report) : (s.answer r).key = s.key := rfl
@[simp] theorem answer_redraw (s : State) (r : Report) : (s.answer r).redraw = s.redraw := rfl
@[simp] theorem answer_fault (s : State) (r : Report) : (s.answer r).fault = s.fault := rfl
@[simp] theorem answer_ready (s : State) (r : Report) : (s.answer r).ready = s.ready := rfl
@[simp] theorem answer_draws (s : State) (r : Report) : (s.answer r).draws = s.draws := rfl

/-! `tick`. -/

@[simp] theorem tick_v (s : State) : (s.tick).v = s.v := rfl
@[simp] theorem tick_pc (s : State) : (s.tick).pc = s.pc := rfl
@[simp] theorem tick_i (s : State) : (s.tick).i = s.i := rfl
@[simp] theorem tick_stack (s : State) : (s.tick).stack = s.stack := rfl
@[simp] theorem tick_sp (s : State) : (s.tick).sp = s.sp := rfl
@[simp] theorem tick_st (s : State) : (s.tick).st = s.st := rfl
@[simp] theorem tick_mem (s : State) : (s.tick).mem = s.mem := rfl
@[simp] theorem tick_fb (s : State) : (s.tick).fb = s.fb := rfl
@[simp] theorem tick_key (s : State) : (s.tick).key = s.key := rfl
@[simp] theorem tick_redraw (s : State) : (s.tick).redraw = s.redraw := rfl
@[simp] theorem tick_fault (s : State) : (s.tick).fault = s.fault := rfl
@[simp] theorem tick_ready (s : State) : (s.tick).ready = s.ready := rfl
@[simp] theorem tick_report (s : State) : (s.tick).report = s.report := rfl
@[simp] theorem tick_draws (s : State) : (s.tick).draws = s.draws := rfl

/-! The field that each of them changes. -/

@[simp] theorem advance_pc (s : State) : s.advance.pc = s.pc + 2 := rfl
@[simp] theorem jump_pc (s : State) (a : Word) : (s.jump a).pc = a := rfl
@[simp] theorem skipIf_pc (s : State) (c : Bool) : (s.skipIf c).pc = if c then s.pc + 4 else s.pc + 2 := rfl
@[simp] theorem answer_report (s : State) (r : Report) : (s.answer r).report = some r := rfl

/-- The tick takes one off a delay timer that is not zero and stops at zero (R112). -/
@[simp] theorem tick_dt_toNat (s : State) : s.tick.dt.toNat = s.dt.toNat - 1 := by
  show (if s.dt = 0 then 0 else s.dt - 1).toNat = _
  split
  · next h => simp [h]
  · next h =>
    have hne : s.dt.toNat ≠ 0 := fun h0 => h (BitVec.eq_of_toNat_eq h0)
    have := s.dt.isLt
    rw [BitVec.toNat_sub]
    simp
    omega

/-- The tick changes nothing but the delay timer (R112). -/
theorem tick_eq (s : State) : s.tick = { s with dt := s.tick.dt } := rfl

/-! Reading a register. -/

@[simp] theorem reg_advance (s : State) (r : Reg) : s.advance.reg r = s.reg r := rfl
@[simp] theorem reg_jump (s : State) (a : Word) (r : Reg) : (s.jump a).reg r = s.reg r := rfl
@[simp] theorem reg_answer (s : State) (a : Report) (r : Reg) : (s.answer a).reg r = s.reg r := rfl
@[simp] theorem reg_skipIf (s : State) (c : Bool) (r : Reg) : (s.skipIf c).reg r = s.reg r := rfl
@[simp] theorem reg_tick (s : State) (r : Reg) : s.tick.reg r = s.reg r := rfl

/-- Two states with the same register file read alike. -/
theorem reg_eq_of_v_eq (s t : State) (h : t.v = s.v) (r : Reg) : t.reg r = s.reg r := by simp [State.reg, h]

/-- A written register reads back, and every other register is unchanged. -/
theorem reg_setReg (s : State) (x r : Reg) (b : Byte) : (s.setReg x b).reg r = if r = x then b else s.reg r := by
  simp only [State.reg, State.setReg, Vector.getElem_set]
  by_cases h : r = x
  · simp [h]
  · have : x.toNat ≠ r.toNat := fun e => h (BitVec.eq_of_toNat_eq e.symm)
    simp [h, this]

@[simp] theorem reg_setReg_same (s : State) (x : Reg) (b : Byte) : (s.setReg x b).reg x = b := by simp [reg_setReg]

/-- VF by its number. -/
theorem vf_eq : vf = 0xF := rfl

theorem reg_setReg_other (s : State) (x r : Reg) (b : Byte) (h : r ≠ x) : (s.setReg x b).reg r = s.reg r := by simp [reg_setReg, h]

/-- The flag register after a flag is written (R16). -/
theorem reg_setFlag (s : State) (r : Reg) (c : Bool) : (s.setFlag c).reg r = if r = vf then flagByte c else s.reg r := reg_setReg s vf r _

/-- Result and flag: VF holds the flag whichever register x is (R14, R76). -/
theorem reg_setRegFlag (s : State) (x r : Reg) (b : Byte) (c : Bool) :
    (s.setRegFlag x b c).reg r = if r = vf then flagByte c else if r = x then b else s.reg r := by
  rw [State.setRegFlag, reg_setFlag, reg_setReg]

end Sys2Proof.Machine
end

