-- ==== Sys2Proof/Laws/Ops.lean ====
section
/-! SUPPORT. One lemma for each shared operation that says once everything it can do: range checks, push and pop, the end of a step, block
loads, pixels, key look-up. -/

namespace Sys2Proof.Machine

/-- A range check either passes to the effect or raises `AddressFault` with the lowest bad address (R36). -/
theorem checkRange_cases (s e : State) (a n : Nat) :
    (n = 0 ∨ a + n ≤ 0x1000) ∧ s.checkRange a n e = .next e ∨
    (n ≠ 0 ∧ 0x1000 < a + n) ∧ s.checkRange a n e = s.raise .addressFault (max a 0x1000) := by
  unfold State.checkRange
  cases h : lowestOutOfRange a n with
  | none => exact .inl ⟨(lowestOutOfRange_none a n).1 h, rfl⟩
  | some b =>
    obtain ⟨h1, h2⟩ := (lowestOutOfRange_some a n b).1 h
    exact .inr ⟨h1, by rw [h2]⟩

theorem checkRange_pass (s e : State) (a n : Nat) (h : n = 0 ∨ a + n ≤ 0x1000) : s.checkRange a n e = .next e := by
  simp [State.checkRange, (lowestOutOfRange_none a n).2 h]

theorem checkRange_fail (s e : State) (a n : Nat) (hn : n ≠ 0) (h : 0x1000 < a + n) :
    s.checkRange a n e = s.raise .addressFault (max a 0x1000) := by
  simp [State.checkRange, (lowestOutOfRange_some a n _).2 ⟨⟨hn, h⟩, rfl⟩]

/-- A push fails when 16 slots are occupied and otherwise writes the next free slot (R65). -/
theorem push_cases (s : State) (w : Word) :
    (s.sp.val = 16 ∧ s.push w = none) ∨
    ∃ (h : s.sp.val < 16) (p : Fin 17), p.val = s.sp.val + 1 ∧ s.push w = some { s with stack := s.stack.set s.sp.val w h, sp := p } := by
  unfold State.push
  by_cases h : s.sp.val < 16
  · exact .inr ⟨h, ⟨s.sp.val + 1, by omega⟩, rfl, by simp [h]⟩
  · exact .inl ⟨by omega, by simp [h]⟩

/-- A pop fails when the stack is empty and otherwise gives the last occupied slot, which keeps its value (R66). -/
theorem pop_cases (s : State) :
    (s.sp.val = 0 ∧ s.pop = none) ∨
    ∃ (h : 0 < s.sp.val) (p : Fin 17), p.val = s.sp.val - 1 ∧ s.pop = some (s.stack[s.sp.val - 1]'(by omega), { s with sp := p }) := by
  unfold State.pop
  by_cases h : 0 < s.sp.val
  · exact .inr ⟨h, ⟨s.sp.val - 1, by omega⟩, rfl, by simp [h]⟩
  · exact .inl ⟨by omega, by simp [h]⟩

/-- The end of a step without a fault: the tick and `Ok` (R57, R112). -/
theorem complete_ok (s : State) (h : s.fault = none) : s.complete = s.tick.answer .ok := by simp [State.complete, h]

/-- The end of a faulting step: the outcome alone (R105). -/
theorem complete_fault (s : State) (r : FaultRecord) (h : s.fault = some r) : s.complete = s.answer (.fault r.kind r.info) := by
  simp [State.complete, h]

/-- A register after a block of bytes is written to the registers from k on (R95). -/
theorem getElem_setRegsFrom (v : Vector Byte 16) (k j : Nat) (bs : List Byte) (hj : j < 16) :
    (setRegsFrom v k bs)[j] = if h : k ≤ j ∧ j < k + bs.length then bs[j - k] else v[j] := by
  induction bs generalizing v k with
  | nil => simp [setRegsFrom]
  | cons b bs ih =>
    rw [setRegsFrom, ih]
    rcases Nat.lt_trichotomy j k with h | h | h
    · have h1 : ¬ (k + 1 ≤ j ∧ j < k + 1 + bs.length) := by omega
      have h2 : ¬ (k ≤ j ∧ j < k + (b :: bs).length) := by omega
      rw [dif_neg h1, dif_neg h2, Vector.getElem_setIfInBounds]
      simp [show k ≠ j by omega]
    · subst h
      simp
    · by_cases hi : j < k + 1 + bs.length
      · have h1 : k + 1 ≤ j ∧ j < k + 1 + bs.length := by omega
        have h2 : k ≤ j ∧ j < k + (b :: bs).length := by simp only [List.length_cons]; omega
        rw [dif_pos h1, dif_pos h2]
        simp only [show j - k = (j - (k + 1)) + 1 by omega, List.getElem_cons_succ]
      · have h1 : ¬ (k + 1 ≤ j ∧ j < k + 1 + bs.length) := by omega
        have h2 : ¬ (k ≤ j ∧ j < k + (b :: bs).length) := by simp only [List.length_cons]; omega
        rw [dif_neg h1, dif_neg h2, Vector.getElem_setIfInBounds]
        simp [show k ≠ j by omega]

@[simp] theorem length_regsUpTo (s : State) (x : Reg) : (s.regsUpTo x).length = x.toNat + 1 := by
  have := x.isLt
  simp [State.regsUpTo]; omega

theorem getElem_regsUpTo (s : State) (x r : Reg) (h : r.toNat < (s.regsUpTo x).length) : (s.regsUpTo x)[r.toNat] = s.reg r := by
  simp [State.regsUpTo, State.reg]

/-- Toggling a pixel flips it and leaves every other pixel alone (R61). -/
theorem pixel_togglePixel (fb : Framebuffer) (x x' : Fin 64) (y y' : Fin 32) :
    pixel (togglePixel fb x y) x' y' = (pixel fb x' y' ^^ decide (x' = x ∧ y' = y)) := by
  unfold pixel togglePixel
  by_cases hy : y' = y
  · subst hy
    simp [Fin.ext_iff, eq_comm]
  · have : (y : Nat) ≠ y' := fun e => hy (Fin.ext e.symm)
    simp [hy, this]

@[simp] theorem pixel_blank (x : Fin 64) (y : Fin 32) : pixel blankFramebuffer x y = false := by
  simp [pixel, blankFramebuffer]

/-- The columns of one sprite row are targeted once each (R60): no two bits of a row share a pixel. -/
theorem pixelColumn_injective (x0 : Byte) (c d : Nat) (hc : c < 8) (hd : d < 8) (h : pixelColumn x0 c = pixelColumn x0 d) : c = d := by
  have := congrArg Fin.val h
  simp [pixelColumn, Fin.ofNat] at this
  omega

/-- The rows of a sprite are targeted once each (R60). -/
theorem pixelRow_injective (y0 : Byte) (r t : Nat) (hr : r < 16) (ht : t < 16) (h : pixelRow y0 r = pixelRow y0 t) : r = t := by
  have := congrArg Fin.val h
  simp [pixelRow, Fin.ofNat] at this
  omega

/-- FX0A finds a key exactly when one is pressed, and then the least (R99). -/
theorem leastPressed_some (key : Vector Bool 16) (k : Fin 16) :
    leastPressed key = some k ↔ key[k] = true ∧ ∀ j : Fin 16, j < k → key[j] = false := by
  rw [leastPressed, List.find?_eq_some_iff_getElem]
  constructor
  · rintro ⟨hk, i, hi, he, hlt⟩
    simp at he
    subst he
    refine ⟨hk, fun j hj => ?_⟩
    have := hlt j.val hj
    simpa using this
  · rintro ⟨hk, h⟩
    refine ⟨hk, k.val, by simp, by simp, fun j hj => ?_⟩
    have := h ⟨j, by omega⟩ hj
    simpa using this

theorem leastPressed_none (key : Vector Bool 16) : leastPressed key = none ↔ ∀ k : Fin 16, key[k] = false := by
  simp [leastPressed]

theorem keyIndex_some (b : Byte) (k : Fin 16) : keyIndex b = some k ↔ b.toNat = k.val := by
  unfold keyIndex
  split
  · simp [Fin.ext_iff]
  · have := k.isLt; simp; omega

theorem keyIndex_none (b : Byte) : keyIndex b = none ↔ 16 ≤ b.toNat := by
  unfold keyIndex
  split <;> simp <;> omega

end Sys2Proof.Machine
end

