-- ==== Sys2Proof/Laws/Display.lean ====
section
/-! SUPPORT. What the sprite-blit unit does with one row byte (spec 41_display.md R59, R60, R61): which pixels it flips and when it meets a
collision, whatever the order of the bits. -/

namespace Sys2Proof.Machine

/-- Flipping distinct columns of one row: the pixels listed flip, the others stay, and a collision is one of them having been 1. -/
theorem foldl_blitPixel (y : Fin 32) (columns : List (Fin 64)) (b : Blit) (hc : columns.Nodup) :
    (∀ x' y', pixel (columns.foldl (blitPixel y) b).fb x' y' = (pixel b.fb x' y' ^^ decide (x' ∈ columns ∧ y' = y))) ∧
    ((columns.foldl (blitPixel y) b).hit = true ↔ b.hit = true ∨ ∃ x ∈ columns, pixel b.fb x y = true) := by
  induction columns generalizing b with
  | nil => simp
  | cons c cs ih =>
    obtain ⟨hn, hcs⟩ := List.nodup_cons.1 hc
    obtain ⟨h1, h2⟩ := ih (blitPixel y b c) hcs
    constructor
    · intro x' y'
      rw [List.foldl_cons, h1, blitPixel, pixel_togglePixel]
      by_cases hx : x' = c
      · subst hx; simp [hn]
      · simp [hx]
    · rw [List.foldl_cons, h2]
      have other : ∀ x ∈ cs, pixel (togglePixel b.fb c y) x y = pixel b.fb x y := by
        intro x hx
        have : x ≠ c := fun e => hn (e ▸ hx)
        simp [pixel_togglePixel, this]
      have same : (∃ x ∈ cs, pixel (blitPixel y b c).fb x y = true) ↔ ∃ x ∈ cs, pixel b.fb x y = true := by
        constructor <;> rintro ⟨x, hx, hp⟩ <;> refine ⟨x, hx, ?_⟩ <;> simpa [blitPixel, other x hx] using hp
      rw [same]
      simp [blitPixel, or_assoc]

/-- The columns a row byte targets: those of its set bits (R59, R60). -/
theorem mem_spriteColumns (x0 row : Byte) (x : Fin 64) :
    x ∈ spriteColumns x0 row ↔ ∃ c, c < 8 ∧ row.getLsbD (7 - c) = true ∧ x.val = (x0.toNat + c) % 64 := by
  simp only [spriteColumns, spriteBit, List.mem_map, List.mem_filter, List.mem_range, pixelColumn, Fin.ext_iff, Fin.val_ofNat]
  constructor
  · rintro ⟨c, ⟨hc, hb⟩, he⟩; exact ⟨c, hc, hb, he.symm⟩
  · rintro ⟨c, hc, hb, he⟩; exact ⟨c, ⟨hc, hb⟩, he.symm⟩

/-- No two bits of one row byte target one pixel (R60). -/
theorem spriteColumns_nodup (x0 row : Byte) : (spriteColumns x0 row).Nodup := by
  refine List.Nodup.map_on ?_ (List.nodup_range.filter _)
  intro c hc d hd h
  simp only [List.mem_filter, List.mem_range] at hc hd
  exact pixelColumn_injective x0 c d hc.1 hd.1 h

/-- One row byte drawn at row y flips the targets of its set bits and no other pixel (R61). -/
theorem pixel_blitRow (x0 row : Byte) (y : Fin 32) (b : Blit) (x' : Fin 64) (y' : Fin 32) :
    pixel (blitRow x0 y b row).fb x' y' = (pixel b.fb x' y' ^^ decide (x' ∈ spriteColumns x0 row ∧ y' = y)) :=
  (foldl_blitPixel y _ b (spriteColumns_nodup x0 row)).1 x' y'

/-- One row byte meets a collision when one of its targets was 1 (R61). -/
theorem hit_blitRow (x0 row : Byte) (y : Fin 32) (b : Blit) :
    (blitRow x0 y b row).hit = true ↔ b.hit = true ∨ ∃ x ∈ spriteColumns x0 row, pixel b.fb x y = true :=
  (foldl_blitPixel y _ b (spriteColumns_nodup x0 row)).2

end Sys2Proof.Machine
end

