-- ==== Sys2Proof/Laws/Encoding.lean ====
section
/-! SUPPORT. The bits of an encoded word, format by format (spec 30_encoding.md R50), the fields that the decoder reads back from it, and
what the masks of the opcode table (R52) say of a word's class and function. -/

namespace Sys2Proof

theorem getLsbD_encodeA (c : BitVec 4) (nnn : Addr12) (k : Nat) :
    (encodeA c nnn).getLsbD k = if k < 12 then nnn.getLsbD k else c.getLsbD (k - 12) := by
  have := BitVec.getLsbD_append (x := c) (y := nnn) (i := k)
  rw [encodeA]; exact this

theorem getLsbD_encodeR (c : BitVec 4) (x : Reg) (nn : Byte) (k : Nat) :
    (encodeR c x nn).getLsbD k = if k < 8 then nn.getLsbD k else if k < 12 then x.getLsbD (k - 8) else c.getLsbD (k - 12) := by
  have h := BitVec.getLsbD_append (x := c ++ x) (y := nn) (i := k)
  rw [BitVec.getLsbD_append (x := c) (y := x)] at h
  refine Eq.trans h ?_
  by_cases h8 : k < 8
  · simp [h8]
  · by_cases h12 : k < 12
    · simp [h8, h12, show k - 8 < 4 by omega]
    · simp [h8, h12, show ¬ k - 8 < 4 by omega, Nat.sub_sub]

theorem getLsbD_encodeP (c : BitVec 4) (x y : Reg) (n : BitVec 4) (k : Nat) :
    (encodeP c x y n).getLsbD k =
      if k < 4 then n.getLsbD k else if k < 8 then y.getLsbD (k - 4) else if k < 12 then x.getLsbD (k - 8) else c.getLsbD (k - 12) := by
  have h := BitVec.getLsbD_append (x := c ++ x ++ y) (y := n) (i := k)
  rw [BitVec.getLsbD_append (x := c ++ x) (y := y), BitVec.getLsbD_append (x := c) (y := x)] at h
  refine Eq.trans h ?_
  by_cases h4 : k < 4
  · simp [h4]
  · by_cases h8 : k < 8
    · simp [h4, h8, show k - 4 < 4 by omega]
    · by_cases h12 : k < 12
      · simp [h4, h8, h12, show ¬ k - 4 < 4 by omega, show k - 8 < 4 by omega, Nat.sub_sub]
      · simp [h4, h8, h12, show ¬ k - 4 < 4 by omega, show ¬ k - 8 < 4 by omega, Nat.sub_sub]

theorem fields_encodeA (c : BitVec 4) (nnn : Addr12) : classOf (encodeA c nnn) = c ∧ fieldNNN (encodeA c nnn) = nnn := by
  constructor <;> apply BitVec.eq_of_getLsbD_eq <;> intro k hk
  · simp [classOf, getLsbD_encodeA, hk]
  · simp [fieldNNN, getLsbD_encodeA, hk]

theorem fields_encodeR (c : BitVec 4) (x : Reg) (nn : Byte) :
    classOf (encodeR c x nn) = c ∧ fieldX (encodeR c x nn) = x ∧ fieldNN (encodeR c x nn) = nn := by
  refine ⟨?_, ?_, ?_⟩ <;> apply BitVec.eq_of_getLsbD_eq <;> intro k hk
  · simp [classOf, getLsbD_encodeR, hk, show ¬ 12 + k < 8 by omega]
  · simp [fieldX, getLsbD_encodeR, hk, show 8 + k < 12 by omega]
  · simp [fieldNN, getLsbD_encodeR, hk]

theorem fields_encodeP (c : BitVec 4) (x y : Reg) (n : BitVec 4) :
    classOf (encodeP c x y n) = c ∧ fieldX (encodeP c x y n) = x ∧ fieldY (encodeP c x y n) = y ∧ fieldN (encodeP c x y n) = n := by
  refine ⟨?_, ?_, ?_, ?_⟩ <;> apply BitVec.eq_of_getLsbD_eq <;> intro k hk
  · simp [classOf, getLsbD_encodeP, hk, show ¬ 12 + k < 8 by omega, show ¬ 12 + k < 4 by omega]
  · simp [fieldX, getLsbD_encodeP, hk, show 8 + k < 12 by omega, show ¬ 8 + k < 4 by omega]
  · simp [fieldY, getLsbD_encodeP, hk, show 4 + k < 8 by omega]
  · simp [fieldN, getLsbD_encodeP, hk]
/-- A field of a masked word is the masked field. -/
theorem classOf_and (op m : Word) : classOf (op &&& m) = classOf op &&& classOf m := by simp [classOf, BitVec.extractLsb'_and]
theorem fieldN_and (op m : Word) : fieldN (op &&& m) = fieldN op &&& fieldN m := by simp [fieldN, BitVec.extractLsb'_and]
theorem fieldNN_and (op m : Word) : fieldNN (op &&& m) = fieldNN op &&& fieldNN m := by simp [fieldNN, BitVec.extractLsb'_and]

theorem and_nibble (c : BitVec 4) : c &&& 0xF#4 = c := by revert c; decide
theorem and_byte (c : BitVec 8) : c &&& 0xFF#8 = c := by revert c; decide

/-- Formats A, R and D: the mask 0xF000 fixes the class. -/
theorem classOf_of_mask_F000 (op pattern : Word) (h : op &&& 0xF000 = pattern) : classOf op = classOf pattern := by
  have := congrArg classOf h
  rwa [classOf_and, show classOf 0xF000 = 0xF#4 by decide, and_nibble] at this

/-- Format P: the mask 0xF00F fixes the class and the function nibble. -/
theorem fields_of_mask_F00F (op pattern : Word) (h : op &&& 0xF00F = pattern) : classOf op = classOf pattern ∧ fieldN op = fieldN pattern := by
  have h1 := congrArg classOf h
  have h2 := congrArg fieldN h
  rw [classOf_and, show classOf 0xF00F = 0xF#4 by decide, and_nibble] at h1
  rw [fieldN_and, show fieldN 0xF00F = 0xF#4 by decide, and_nibble] at h2
  exact ⟨h1, h2⟩

/-- Format F: the mask 0xF0FF fixes the class and the function byte. -/
theorem fields_of_mask_F0FF (op pattern : Word) (h : op &&& 0xF0FF = pattern) :
    classOf op = classOf pattern ∧ fieldNN op = fieldNN pattern := by
  have h1 := congrArg classOf h
  have h2 := congrArg fieldNN h
  rw [classOf_and, show classOf 0xF0FF = 0xF#4 by decide, and_nibble] at h1
  rw [fieldNN_and, show fieldNN 0xF0FF = 0xFF#8 by decide, and_byte] at h2
  exact ⟨h1, h2⟩

end Sys2Proof
end

