-- ==== Sys2Proof/Laws/PerInstr.lean ====
section
/-! SUPPORT. Laws stated of every instruction as syntax, one lemma for each constructor.
Family RowMatch: the word of an instruction is selected by the row of the opcode table that bears the instruction's pattern
(spec 30_encoding.md R52), so the encoder of R50 agrees with the masks and matches of R52. -/

namespace Sys2Proof

theorem encodeA_and (c : BitVec 4) (nnn : Addr12) : encodeA c nnn &&& 0xF000 = c ++ 0#12 := by
  rw [show (0xF000 : Word) = (0xF : BitVec 4) ++ 0#12 by decide, encodeA, BitVec.and_append]
  simp only [BitVec.and_zero, show (0xF : BitVec 4) = BitVec.allOnes 4 by decide, BitVec.and_allOnes]

theorem encodeR_and (c : BitVec 4) (x : Reg) (nn : Byte) : encodeR c x nn &&& 0xF000 = c ++ 0#4 ++ 0#8 := by
  rw [show (0xF000 : Word) = (0xF : BitVec 4) ++ 0#4 ++ 0#8 by decide, encodeR, BitVec.and_append, BitVec.and_append]
  simp only [BitVec.and_zero, show (0xF : BitVec 4) = BitVec.allOnes 4 by decide, BitVec.and_allOnes]

theorem encodeF_and (c : BitVec 4) (x : Reg) (f : Byte) : encodeF c x f &&& 0xF0FF = c ++ 0#4 ++ f := by
  rw [show (0xF0FF : Word) = (0xF : BitVec 4) ++ 0#4 ++ (0xFF : BitVec 8) by decide, encodeF, BitVec.and_append, BitVec.and_append]
  simp only [BitVec.and_zero, show (0xF : BitVec 4) = BitVec.allOnes 4 by decide, show (0xFF : BitVec 8) = BitVec.allOnes 8 by decide,
    BitVec.and_allOnes]

theorem encodeP_and (c : BitVec 4) (x y : Reg) (n : BitVec 4) :
    encodeP c x y n &&& 0xF00F = c ++ 0#4 ++ 0#4 ++ n := by
  rw [show (0xF00F : Word) = (0xF : BitVec 4) ++ 0#4 ++ 0#4 ++ (0xF : BitVec 4) by decide, encodeP, BitVec.and_append,
    BitVec.and_append, BitVec.and_append]
  simp only [BitVec.and_zero, show (0xF : BitVec 4) = BitVec.allOnes 4 by decide, BitVec.and_allOnes]

theorem encodeP_and_class (c : BitVec 4) (x y : Reg) (n : BitVec 4) :
    encodeP c x y n &&& 0xF000 = c ++ 0#4 ++ 0#4 ++ 0#4 := by
  rw [show (0xF000 : Word) = (0xF : BitVec 4) ++ 0#4 ++ 0#4 ++ 0#4 by decide, encodeP, BitVec.and_append,
    BitVec.and_append, BitVec.and_append]
  simp only [BitVec.and_zero, show (0xF : BitVec 4) = BitVec.allOnes 4 by decide, BitVec.and_allOnes]

namespace Laws.RowMatch

/-- The row of the instruction's pattern selects the instruction's word (R52). -/
def Statement (i : Instr) : Prop := ∃ row ∈ opcodeTable, row.mnemonic = i.mnemonic ∧ encode i &&& row.mask = row.pattern

theorem cls : Statement (.cls) :=
  ⟨⟨"00E0", 0xFFFF, 0x00E0, .z⟩, by decide, rfl, by decide⟩
theorem ret : Statement (.ret) :=
  ⟨⟨"00EE", 0xFFFF, 0x00EE, .z⟩, by decide, rfl, by decide⟩
theorem jp (nnn : Addr12) : Statement (.jp nnn) :=
  ⟨⟨"1NNN", 0xF000, 0x1000, .a⟩, by decide, rfl, (encodeA_and ..).trans (by decide)⟩
theorem call (nnn : Addr12) : Statement (.call nnn) :=
  ⟨⟨"2NNN", 0xF000, 0x2000, .a⟩, by decide, rfl, (encodeA_and ..).trans (by decide)⟩
theorem seImm (x : Reg) (nn : Byte) : Statement (.seImm x nn) :=
  ⟨⟨"3XNN", 0xF000, 0x3000, .r⟩, by decide, rfl, (encodeR_and ..).trans (by decide)⟩
theorem sneImm (x : Reg) (nn : Byte) : Statement (.sneImm x nn) :=
  ⟨⟨"4XNN", 0xF000, 0x4000, .r⟩, by decide, rfl, (encodeR_and ..).trans (by decide)⟩
theorem seReg (x : Reg) (y : Reg) : Statement (.seReg x y) :=
  ⟨⟨"5XY0", 0xF00F, 0x5000, .p⟩, by decide, rfl, (encodeP_and ..).trans (by decide)⟩
theorem ldImm (x : Reg) (nn : Byte) : Statement (.ldImm x nn) :=
  ⟨⟨"6XNN", 0xF000, 0x6000, .r⟩, by decide, rfl, (encodeR_and ..).trans (by decide)⟩
theorem addImm (x : Reg) (nn : Byte) : Statement (.addImm x nn) :=
  ⟨⟨"7XNN", 0xF000, 0x7000, .r⟩, by decide, rfl, (encodeR_and ..).trans (by decide)⟩
theorem ldReg (x : Reg) (y : Reg) : Statement (.ldReg x y) :=
  ⟨⟨"8XY0", 0xF00F, 0x8000, .p⟩, by decide, rfl, (encodeP_and ..).trans (by decide)⟩
theorem orReg (x : Reg) (y : Reg) : Statement (.orReg x y) :=
  ⟨⟨"8XY1", 0xF00F, 0x8001, .p⟩, by decide, rfl, (encodeP_and ..).trans (by decide)⟩
theorem andReg (x : Reg) (y : Reg) : Statement (.andReg x y) :=
  ⟨⟨"8XY2", 0xF00F, 0x8002, .p⟩, by decide, rfl, (encodeP_and ..).trans (by decide)⟩
theorem xorReg (x : Reg) (y : Reg) : Statement (.xorReg x y) :=
  ⟨⟨"8XY3", 0xF00F, 0x8003, .p⟩, by decide, rfl, (encodeP_and ..).trans (by decide)⟩
theorem addReg (x : Reg) (y : Reg) : Statement (.addReg x y) :=
  ⟨⟨"8XY4", 0xF00F, 0x8004, .p⟩, by decide, rfl, (encodeP_and ..).trans (by decide)⟩
theorem subReg (x : Reg) (y : Reg) : Statement (.subReg x y) :=
  ⟨⟨"8XY5", 0xF00F, 0x8005, .p⟩, by decide, rfl, (encodeP_and ..).trans (by decide)⟩
theorem shrReg (x : Reg) (y : Reg) : Statement (.shrReg x y) :=
  ⟨⟨"8XY6", 0xF00F, 0x8006, .p⟩, by decide, rfl, (encodeP_and ..).trans (by decide)⟩
theorem subnReg (x : Reg) (y : Reg) : Statement (.subnReg x y) :=
  ⟨⟨"8XY7", 0xF00F, 0x8007, .p⟩, by decide, rfl, (encodeP_and ..).trans (by decide)⟩
theorem shlReg (x : Reg) (y : Reg) : Statement (.shlReg x y) :=
  ⟨⟨"8XYE", 0xF00F, 0x800E, .p⟩, by decide, rfl, (encodeP_and ..).trans (by decide)⟩
theorem sneReg (x : Reg) (y : Reg) : Statement (.sneReg x y) :=
  ⟨⟨"9XY0", 0xF00F, 0x9000, .p⟩, by decide, rfl, (encodeP_and ..).trans (by decide)⟩
theorem ldI (nnn : Addr12) : Statement (.ldI nnn) :=
  ⟨⟨"ANNN", 0xF000, 0xA000, .a⟩, by decide, rfl, (encodeA_and ..).trans (by decide)⟩
theorem jpV0 (nnn : Addr12) : Statement (.jpV0 nnn) :=
  ⟨⟨"BNNN", 0xF000, 0xB000, .a⟩, by decide, rfl, (encodeA_and ..).trans (by decide)⟩
theorem rnd (x : Reg) (nn : Byte) : Statement (.rnd x nn) :=
  ⟨⟨"CXNN", 0xF000, 0xC000, .r⟩, by decide, rfl, (encodeR_and ..).trans (by decide)⟩
theorem drw (x : Reg) (y : Reg) (n : Rows) : Statement (.drw x y n) :=
  ⟨⟨"DXYN", 0xF000, 0xD000, .d⟩, by decide, rfl, (encodeP_and_class ..).trans (by decide)⟩
theorem skp (x : Reg) : Statement (.skp x) :=
  ⟨⟨"EX9E", 0xF0FF, 0xE09E, .f⟩, by decide, rfl, (encodeF_and ..).trans (by decide)⟩
theorem sknp (x : Reg) : Statement (.sknp x) :=
  ⟨⟨"EXA1", 0xF0FF, 0xE0A1, .f⟩, by decide, rfl, (encodeF_and ..).trans (by decide)⟩
theorem ldVDt (x : Reg) : Statement (.ldVDt x) :=
  ⟨⟨"FX07", 0xF0FF, 0xF007, .f⟩, by decide, rfl, (encodeF_and ..).trans (by decide)⟩
theorem ldVK (x : Reg) : Statement (.ldVK x) :=
  ⟨⟨"FX0A", 0xF0FF, 0xF00A, .f⟩, by decide, rfl, (encodeF_and ..).trans (by decide)⟩
theorem ldDt (x : Reg) : Statement (.ldDt x) :=
  ⟨⟨"FX15", 0xF0FF, 0xF015, .f⟩, by decide, rfl, (encodeF_and ..).trans (by decide)⟩
theorem ldSt (x : Reg) : Statement (.ldSt x) :=
  ⟨⟨"FX18", 0xF0FF, 0xF018, .f⟩, by decide, rfl, (encodeF_and ..).trans (by decide)⟩
theorem addI (x : Reg) : Statement (.addI x) :=
  ⟨⟨"FX1E", 0xF0FF, 0xF01E, .f⟩, by decide, rfl, (encodeF_and ..).trans (by decide)⟩
theorem ldF (x : Reg) : Statement (.ldF x) :=
  ⟨⟨"FX29", 0xF0FF, 0xF029, .f⟩, by decide, rfl, (encodeF_and ..).trans (by decide)⟩
theorem ldB (x : Reg) : Statement (.ldB x) :=
  ⟨⟨"FX33", 0xF0FF, 0xF033, .f⟩, by decide, rfl, (encodeF_and ..).trans (by decide)⟩
theorem ldStore (x : Reg) : Statement (.ldStore x) :=
  ⟨⟨"FX55", 0xF0FF, 0xF055, .f⟩, by decide, rfl, (encodeF_and ..).trans (by decide)⟩
theorem ldLoad (x : Reg) : Statement (.ldLoad x) :=
  ⟨⟨"FX65", 0xF0FF, 0xF065, .f⟩, by decide, rfl, (encodeF_and ..).trans (by decide)⟩

end Laws.RowMatch

end Sys2Proof
end

