-- ==== Sys2Proof/Laws/Step.lean ====
section
/-! SUPPORT. What a step can do, said once (spec 30_encoding.md R57, 60_exceptions.md R107), and the induction over the states a host can
bring about. -/

namespace Sys2Proof.Machine

/-- The cases of a step that answers a next state: halted, fetch out of range, an undefined word, or an executed instruction. -/
theorem step_cases (s t : State) (h : step s = .next t) :
    s.ready = true ∧
    ((∃ r, s.fault = some r ∧ t = s.answer .halted) ∨
     (s.fault = none ∧ 0xFFF ≤ s.pc.toNat ∧
        t = ({ s with fault := some ⟨.addressFault, max s.pc.toNat 0x1000, s.pc⟩ } : State).complete) ∨
     (s.fault = none ∧ s.pc.toNat ≤ 0xFFE ∧ (∃ why, decode (fetchWord s) = .undefined why) ∧ t = undefinedWord (fetchWord s) s) ∨
     (s.fault = none ∧ s.pc.toNat ≤ 0xFFE ∧ ∃ i u, decode (fetchWord s) = .instr i ∧ exec i s = .next u ∧ t = u.complete)) := by
  unfold step at h
  split at h
  · cases h
  · next r hr hf => exact ⟨hr, .inl ⟨_, hf, by cases h; rfl⟩⟩
  · next hr hf =>
    refine ⟨hr, .inr ?_⟩
    split at h
    · next b hb =>
      obtain ⟨h1, rfl⟩ := (lowestOutOfRange_some _ _ _).1 hb
      exact .inl ⟨hf, by omega, by cases h; rfl⟩
    · next hb =>
      have hpc : s.pc.toNat ≤ 0xFFE := by
        have := (lowestOutOfRange_none _ _).1 hb
        omega
      split at h
      · next why hd => exact .inr (.inl ⟨hf, hpc, ⟨why, hd⟩, by cases h; rfl⟩)
      · next i hd =>
        refine .inr (.inr ⟨hf, hpc, i, ?_⟩)
        cases he : exec i s with
        | next u => rw [he] at h; exact ⟨u, hd, rfl, by cases h; rfl⟩
        | fault r => rw [he] at h; cases h
        | refused r => rw [he] at h; cases h

/-- A step that executes an instruction. -/
theorem step_of_exec (s : State) (i : Instr) (hr : s.running) (hpc : s.pc.toNat ≤ 0xFFE) (hd : decode (fetchWord s) = .instr i) :
    step s = completeStep (exec i s) := by
  have hb : lowestOutOfRange s.pc.toNat 2 = none := (lowestOutOfRange_none _ _).2 (.inr (by omega))
  simp [step, hr.1, hr.2, hb, hd]

/-- A property that Reset and Load bring about and that every command keeps holds of every state a host can bring about. -/
theorem reachable_of_kept (P : State → Prop) (hreset : ∀ s, P (reset s)) (hload : ∀ bytes s, P (load bytes s).1)
    (hstep : ∀ s t, P s → step s = .next t → P t) (hkeys : ∀ key s, P s → P (setKeys key s)) (hredraw : ∀ s, P s → P (clearRedraw s)) :
    ∀ s, Reachable s → P s := by
  intro s hs
  induction hs with
  | afterReset s => exact hreset s
  | afterLoad bytes s => exact hload bytes s
  | afterCommand c s t _ hc ih =>
    cases c with
    | reset => cases hc; exact hreset s
    | load bytes => cases hc; exact hload bytes s
    | step => exact hstep s t ih hc
    | setKeys key => cases hc; exact hkeys key s ih
    | clearRedraw => cases hc; exact hredraw s ih

end Sys2Proof.Machine
end

