-- ==== Sys2Proof/Tests/Slice0.lean ====
section
/-! SUPPORT. Tests whose expected results come from the spec: the words of 30_encoding.md R52 written out, and the vectors of
95_test_vectors.md, named by their numbers there. Each is one step on a small state. -/

namespace Sys2Proof.Tests

open Sys2Proof.Machine

/-! Well-formedness refuses an ill-formed term of each kind: a word of each undefined class (R54), and a program image too long by one byte
(R120). -/

theorem test_wellFormed_accepts : wordWellFormed 0x00E0 = true ∧ wordWellFormed 0x8AB6 = true ∧ wordWellFormed 0xF365 = true := by decide
theorem test_wellFormed_refuses_class0 : wordWellFormed 0x0000 = false ∧ wordWellFormed 0x0123 = false := by decide
theorem test_wellFormed_refuses_class5 : wordWellFormed 0x5121 = false := by decide
theorem test_wellFormed_refuses_class8 : wordWellFormed 0x8128 = false ∧ wordWellFormed 0x812F = false := by decide
theorem test_wellFormed_refuses_class9 : wordWellFormed 0x912F = false := by decide
theorem test_wellFormed_refuses_classE : wordWellFormed 0xE19F = false := by decide
theorem test_wellFormed_refuses_classF : wordWellFormed 0xF019 = false := by decide
theorem test_image_accepts_3584 : imageWellFormed (List.replicate 3584 0xAA) = true := by
  rw [imageWellFormed, List.length_replicate]; decide
theorem test_image_refuses_3585 : imageWellFormed (List.replicate 3585 0xAA) = false := by
  rw [imageWellFormed, List.length_replicate]; decide

/-! The opcode table (R52): 34 rows, no two of which select a common word. -/

theorem test_table_has_34_rows : opcodeTable.length = 34 := by decide
theorem test_table_rows_disjoint :
    opcodeTable.Pairwise (fun r t => r.mask &&& t.mask &&& (r.pattern ^^^ t.pattern) ≠ 0) := by decide

/-! Decoding: each row's word, written bit by bit from R52 with its own operands. -/

theorem test_decode_00E0 : decode 0b0000000011100000 = .instr .cls := by decide
theorem test_decode_00EE : decode 0b0000000011101110 = .instr .ret := by decide
theorem test_decode_1NNN : decode 0b0001101010111100 = .instr (.jp 0xABC) := by decide
theorem test_decode_2NNN : decode 0b0010101010111100 = .instr (.call 0xABC) := by decide
theorem test_decode_3XNN : decode 0b0011101001000010 = .instr (.seImm 0xA 0x42) := by decide
theorem test_decode_4XNN : decode 0b0100101001000010 = .instr (.sneImm 0xA 0x42) := by decide
theorem test_decode_5XY0 : decode 0b0101101001110000 = .instr (.seReg 0xA 0x7) := by decide
theorem test_decode_6XNN : decode 0b0110101001000010 = .instr (.ldImm 0xA 0x42) := by decide
theorem test_decode_7XNN : decode 0b0111101001000010 = .instr (.addImm 0xA 0x42) := by decide
theorem test_decode_8XY0 : decode 0b1000101001110000 = .instr (.ldReg 0xA 0x7) := by decide
theorem test_decode_8XY1 : decode 0b1000101001110001 = .instr (.orReg 0xA 0x7) := by decide
theorem test_decode_8XY2 : decode 0b1000101001110010 = .instr (.andReg 0xA 0x7) := by decide
theorem test_decode_8XY3 : decode 0b1000101001110011 = .instr (.xorReg 0xA 0x7) := by decide
theorem test_decode_8XY4 : decode 0b1000101001110100 = .instr (.addReg 0xA 0x7) := by decide
theorem test_decode_8XY5 : decode 0b1000101001110101 = .instr (.subReg 0xA 0x7) := by decide
theorem test_decode_8XY6 : decode 0b1000101001110110 = .instr (.shrReg 0xA 0x7) := by decide
theorem test_decode_8XY7 : decode 0b1000101001110111 = .instr (.subnReg 0xA 0x7) := by decide
theorem test_decode_8XYE : decode 0b1000101001111110 = .instr (.shlReg 0xA 0x7) := by decide
theorem test_decode_9XY0 : decode 0b1001101001110000 = .instr (.sneReg 0xA 0x7) := by decide
theorem test_decode_ANNN : decode 0b1010101010111100 = .instr (.ldI 0xABC) := by decide
theorem test_decode_BNNN : decode 0b1011101010111100 = .instr (.jpV0 0xABC) := by decide
theorem test_decode_CXNN : decode 0b1100101001000010 = .instr (.rnd 0xA 0x42) := by decide
theorem test_decode_DXYN : decode 0b1101101001110101 = .instr (.drw 0xA 0x7 0x5) := by decide
theorem test_decode_EX9E : decode 0b1110101010011110 = .instr (.skp 0xA) := by decide
theorem test_decode_EXA1 : decode 0b1110101010100001 = .instr (.sknp 0xA) := by decide
theorem test_decode_FX07 : decode 0b1111101000000111 = .instr (.ldVDt 0xA) := by decide
theorem test_decode_FX0A : decode 0b1111101000001010 = .instr (.ldVK 0xA) := by decide
theorem test_decode_FX15 : decode 0b1111101000010101 = .instr (.ldDt 0xA) := by decide
theorem test_decode_FX18 : decode 0b1111101000011000 = .instr (.ldSt 0xA) := by decide
theorem test_decode_FX1E : decode 0b1111101000011110 = .instr (.addI 0xA) := by decide
theorem test_decode_FX29 : decode 0b1111101000101001 = .instr (.ldF 0xA) := by decide
theorem test_decode_FX33 : decode 0b1111101000110011 = .instr (.ldB 0xA) := by decide
theorem test_decode_FX55 : decode 0b1111101001010101 = .instr (.ldStore 0xA) := by decide
theorem test_decode_FX65 : decode 0b1111101001100101 = .instr (.ldLoad 0xA) := by decide
theorem test_decode_big_endian : decodeBytes [0x12, 0x34, 0x56] = (.instr (.jp 0x234), [0x56]) := by decide
theorem test_decode_truncated : decodeBytes [0x12] = (.undefined .truncated, [0x12]) := by decide
theorem test_decode_rejects_by_name :
    decode 0x0123 = .undefined .undefinedClass0 ∧ decode 0x5121 = .undefined .undefinedClass5 ∧
    decode 0x8128 = .undefined .undefinedClass8 ∧ decode 0x912F = .undefined .undefinedClass9 ∧
    decode 0xE19F = .undefined .undefinedClassE ∧ decode 0xF019 = .undefined .undefinedClassF := by decide
theorem test_encode_words : encode (.addReg 0x1 0x2) = 0x8124 ∧ encode (.drw 0x0 0x1 0x2) = 0xD012 ∧ encodeBytes (.jp 0x20C) = [0x12, 0x0C] := by decide
theorem test_decodeTableWord : decodeTableWord 16 0xA123 = some (.ldI 0x123) ∧ decodeTableWord 16 0x0000 = none := by decide

/-! Steps. `at300` is the start of 95_test_vectors.md: after Reset, pc = 0x300 and the word stored there. -/

/-- After Reset, with pc = 0x300. -/
def base : State := { State.reset with pc := 0x300 }

/-- A field of the next state. -/
def after {α : Type} (r : Result) (f : State → α) : Option α :=
  match r with
  | .next s => some (f s)
  | .fault _ => none
  | .refused _ => none

/-- One step on the word w, placed at pc. -/
def run (s : State) (w : Nat) : Result := step (s.withFetchWord 16 w)

/-- A framebuffer with the pixels of a list set. -/
def fbOf (l : List (Fin 64 × Fin 32)) : Framebuffer := l.foldl (fun fb p => togglePixel fb p.1 p.2) blankFramebuffer

theorem test_00E0_L1_3 :
    after (run { base with fb := fbOf [(1, 1), (63, 31)] } 0x00E0) (fun t => (t.fb, t.redraw, t.pc, t.report)) =
      some (blankFramebuffer, true, 0x302, some .ok) := by decide
theorem test_DXYN_D5_D9 :
    after (run { (base.setReg 0xF 0x05) with i := 0x400, fb := fbOf [(5, 0)], mem := base.mem.write 0x400 0x80 } 0xDF01)
      (fun t => (t.fb, t.reg 0xF, t.redraw)) = some (blankFramebuffer, 0x01, true) := by decide
theorem test_DXYN_D3_wrap :
    after (run { ((base.setReg 0 0x3C).setReg 1 0x1F) with i := 0x400, mem := base.mem.write 0x400 0xFF } 0xD011)
      (fun t => (t.fb, t.reg 0xF)) =
      some (fbOf [(60, 31), (61, 31), (62, 31), (63, 31), (0, 31), (1, 31), (2, 31), (3, 31)], 0x00) := by decide
theorem test_00EE_C4 :
    after (run { base with sp := 1, stack := base.stack.set 0 0x204 } 0x00EE) (fun t => (t.sp, t.pc, t.stack[0])) =
      some (0, 0x206, 0x204) := by decide
theorem test_00EE_F3 :
    after (run { base with dt := 5 } 0x00EE) (fun t => (t.pc, t.dt, t.fault, t.report)) =
      some (0x300, 5, some ⟨.stackUnderflow, 0x300, 0x300⟩, some (.fault .stackUnderflow 0x300)) := by decide
theorem test_1NNN_L1_7 : after (run { base with pc := 0x200 } 0x1300) (·.pc) = some 0x300 := by decide
theorem test_2NNN_C3 : after (run base 0x2400) (fun t => (t.stack[0], t.sp, t.pc)) = some (0x300, 1, 0x400) := by decide
theorem test_2NNN_C5 :
    after (run { base with sp := 16 } 0x2400) (fun t => (t.pc, t.sp, t.report)) =
      some (0x300, 16, some (.fault .stackOverflow 0x300)) := by decide
theorem test_3XNN_C7_C8 :
    after (run (base.setReg 1 0x42) 0x3142) (·.pc) = some 0x304 ∧ after (run (base.setReg 1 0x41) 0x3142) (·.pc) = some 0x302 := by decide
theorem test_4XNN_C9_C10 :
    after (run (base.setReg 1 0x41) 0x4142) (·.pc) = some 0x304 ∧ after (run (base.setReg 1 0x42) 0x4142) (·.pc) = some 0x302 := by decide
theorem test_5XY0_C11 : after (run ((base.setReg 1 3).setReg 2 3) 0x5120) (·.pc) = some 0x304 := by decide
theorem test_9XY0_C12_C13 :
    after (run ((base.setReg 1 3).setReg 2 4) 0x9120) (·.pc) = some 0x304 ∧
    after (run ((base.setReg 1 3).setReg 2 3) 0x9120) (·.pc) = some 0x302 := by decide
theorem test_BNNN_C16 : after (run (base.setReg 0 0xFF) 0xBFFF) (·.pc) = some 0x10FE := by decide
theorem test_6XNN_A1 : after (run base 0x6A42) (·.reg 0xA) = some 0x42 := by decide
theorem test_7XNN_A2_A3 :
    after (run (base.setReg 1 0xFF) 0x7102) (fun t => (t.reg 1, t.reg 0xF)) = some (0x01, 0x00) ∧
    after (run (base.setReg 0xF 0xFF) 0x7F01) (·.reg 0xF) = some 0x00 := by decide
theorem test_8XY0_A4 : after (run (base.setReg 2 0x9A) 0x8120) (·.reg 1) = some 0x9A := by decide
theorem test_8XY1_A5 :
    after (run (((base.setReg 1 0xF0).setReg 2 0x0F).setReg 0xF 0x55) 0x8121) (fun t => (t.reg 1, t.reg 0xF)) = some (0xFF, 0x55) := by decide
theorem test_8XY2_A6 : after (run ((base.setReg 1 0xF0).setReg 2 0x3C) 0x8122) (·.reg 1) = some 0x30 := by decide
theorem test_8XY3_A7 : after (run ((base.setReg 1 0xF0).setReg 2 0x3C) 0x8123) (·.reg 1) = some 0xCC := by decide
theorem test_8XY4_L1_4 :
    after (run ((base.setReg 1 0xFF).setReg 2 0x01) 0x8124) (fun t => (t.reg 1, t.reg 0xF)) = some (0x00, 1) ∧
    after (run ((base.setReg 1 0x01).setReg 2 0x01) 0x8124) (fun t => (t.reg 1, t.reg 0xF)) = some (0x02, 0) := by decide
theorem test_8XY4_A9 : after (run ((base.setReg 0xF 0xFF).setReg 1 0x01) 0x8F14) (·.reg 0xF) = some 1 := by decide
theorem test_8XY5_L1_5 :
    after (run ((base.setReg 1 0x05).setReg 2 0x03) 0x8125) (fun t => (t.reg 1, t.reg 0xF)) = some (0x02, 1) ∧
    after (run ((base.setReg 1 0x03).setReg 2 0x05) 0x8125) (fun t => (t.reg 1, t.reg 0xF)) = some (0xFE, 0) := by decide
theorem test_8XY5_A13 : after (run ((base.setReg 0xF 0x01).setReg 1 0x02) 0x8F15) (·.reg 0xF) = some 0 := by decide
theorem test_8XY6_A16 :
    after (run ((base.setReg 1 0x05).setReg 2 0x80) 0x8126) (fun t => (t.reg 1, t.reg 0xF, t.reg 2)) = some (0x02, 1, 0x80) := by decide
theorem test_8XY7_A18_A19 :
    after (run ((base.setReg 1 0x03).setReg 2 0x05) 0x8127) (fun t => (t.reg 1, t.reg 0xF)) = some (0x02, 1) ∧
    after (run ((base.setReg 1 0x05).setReg 2 0x03) 0x8127) (fun t => (t.reg 1, t.reg 0xF)) = some (0xFE, 0) := by decide
theorem test_8XYE_A21_A23 :
    after (run (base.setReg 1 0x81) 0x810E) (fun t => (t.reg 1, t.reg 0xF)) = some (0x02, 1) ∧
    after (run (base.setReg 0xF 0x81) 0x8F0E) (·.reg 0xF) = some 1 := by decide
theorem test_CXNN_A24 : (randomAnd 0xA7 0x1 0x0F base).reg 1 = 0x07 ∧ (randomAnd 0xA7 0x1 0x0F base).pc = 0x302 := by decide
theorem test_CXNN_draws : after (run base 0xC10F) (fun t => (t.draws, t.pc)) = some (1, 0x302) := by decide
theorem test_ANNN_I1 : after (run base 0xA123) (·.i) = some 0x123 := by decide
theorem test_FX1E_I2 :
    after (run { (base.setReg 1 0x01) with i := 0xFFF } 0xF11E) (fun t => (t.i, t.reg 0xF)) = some (0x1000, 1) := by decide
theorem test_FX1E_I4 :
    after (run { (base.setReg 1 0x02) with i := 0xFFFF } 0xF11E) (fun t => (t.i, t.reg 0xF)) = some (0x0001, 0) := by decide
theorem test_FX29_I6_I7 :
    after (run (base.setReg 1 0x0A) 0xF129) (·.i) = some 0x32 ∧ after (run (base.setReg 1 0xFF) 0xF129) (·.i) = some 0x4FB := by decide
theorem test_FX33_I12 :
    after (run { (base.setReg 1 0x7B) with i := 0xFFD } 0xF133) (fun t => (t.mem.readBytes 0xFFD 3, t.i)) = some ([1, 2, 3], 0xFFD) := by decide
theorem test_FX33_I13 :
    after (run { (base.setReg 1 0x09) with i := 0xFFE } 0xF133) (fun t => (t.mem.read 0xFFE, t.pc, t.report)) =
      some (0, 0x300, some (.fault .addressFault 0x1000)) := by decide
theorem test_FX55_L1_8 :
    after (run { ((((base.setReg 0 0x11).setReg 1 0x22).setReg 2 0x33).setReg 3 0x44) with i := 0x500 } 0xF355)
      (fun t => (t.mem.readBytes 0x500 5, t.i)) = some ([0x11, 0x22, 0x33, 0x44, 0x00], 0x504) := by decide
theorem test_FX55_I15_I16 :
    after (run { base with i := 0xFF0 } 0xFF55) (·.i) = some 0x1000 ∧
    after (run { base with i := 0xFF1 } 0xFF55) (·.report) = some (some (.fault .addressFault 0x1000)) := by decide
theorem test_FX65_I18 :
    after (run { (base.setReg 2 0x77) with i := 0x500, mem := base.mem.storeBytes 0x500 [0xAB, 0xCD] } 0xF165)
      (fun t => (t.reg 0, t.reg 1, t.reg 2, t.i)) = some (0xAB, 0xCD, 0x77, 0x502) := by decide
theorem test_EX9E_K1_K2 :
    after (run { (base.setReg 1 5) with key := base.key.set 5 true } 0xE19E) (·.pc) = some 0x304 ∧
    after (run (base.setReg 1 5) 0xE19E) (·.pc) = some 0x302 := by decide
theorem test_EX9E_K6 :
    after (run (base.setReg 1 0xFF) 0xE19E) (fun t => (t.pc, t.report)) = some (0x300, some (.fault .keyIndexFault 0xFF)) := by decide
theorem test_EXA1_K3_K4 :
    after (run { (base.setReg 1 5) with key := base.key.set 5 true } 0xE1A1) (·.pc) = some 0x302 ∧
    after (run (base.setReg 1 5) 0xE1A1) (·.pc) = some 0x304 := by decide
theorem test_FX07_K7 : after (run { base with dt := 3 } 0xF107) (fun t => (t.reg 1, t.dt)) = some (3, 2) := by decide
theorem test_FX0A_K13 :
    after (run { base with key := (base.key.set 7 true).set 9 true } 0xF20A) (fun t => (t.reg 2, t.pc)) = some (7, 0x302) := by decide
theorem test_FX0A_K14 : after (run { base with dt := 2 } 0xF20A) (fun t => (t.pc, t.dt, t.report)) = some (0x300, 1, some .ok) := by decide
theorem test_FX15_K9_K10 :
    after (run (base.setReg 0 1) 0xF015) (·.dt) = some 0 ∧ after (run (base.setReg 0 5) 0xF015) (·.dt) = some 4 := by decide
theorem test_FX18_K11 : after (run (base.setReg 3 0x20) 0xF318) (·.st) = some 0x20 := by decide

/-! The step cycle, faults, reset and load. -/

theorem test_fetch_odd_E2 : after (run { base with pc := 0x301 } 0x1300) (·.pc) = some 0x300 := by decide
theorem test_fetch_end_E3 :
    after (step { base with pc := 0xFFF, dt := 5 }) (fun t => (t.pc, t.dt, t.report)) =
      some (0xFFF, 5, some (.fault .addressFault 0x1000)) := by decide
theorem test_undefined_E12 :
    after (run { base with dt := 5 } 0x0123) (fun t => (t.pc, t.dt, t.report)) = some (0x302, 4, some (.decodeError 0x0123 0x300)) := by decide
theorem test_halted_F1 :
    after (step { base with fault := some ⟨.stackOverflow, 0x300, 0x300⟩, dt := 5 }) (fun t => (t.pc, t.dt, t.report)) =
      some (0x300, 5, some .halted) := by decide
theorem test_powerOn_F4 : after (step { base with ready := false }) (·.pc) = none := by decide
theorem test_load_L1_1 :
    (load [0x12, 0x00] base).2 = .ok ∧ (load [0x12, 0x00] base).1.mem.readBytes 0x200 3 = [0x12, 0x00, 0x00] ∧
    (load [0x12, 0x00] base).1.pc = 0x200 := by decide
theorem test_load_L1_2 : (load (List.replicate 3585 0xAA) base).2 = .loadError 3585 := by
  rw [load, if_neg (by rw [test_image_refuses_3585]; decide), List.length_replicate]
theorem test_reset_F2 : reset { base with fault := some ⟨.stackOverflow, 0x300, 0x300⟩ } = State.reset := by decide

/-! Witnesses: for each obligation with hypotheses, concrete values that meet all of them together, at the boundaries of their ranges. -/

/-- The state before a step on the word w at pc 0x300. -/
def at300 (w : Nat) : State := base.withFetchWord 16 w

/-- The state before a step on the word w at pc 0xFFE, the last address a fetch may have. -/
def atEnd (w : Nat) : State := { base with pc := 0xFFE }.withFetchWord 16 w

/-- A state meets the invariant when it has not faulted and its stack is empty. -/
theorem inv_of_empty (s : State) (hm : s.mem.wf = true) (hs : s.sp = 0) (hf : s.fault = none) : Inv s := by
  refine ⟨hm, fun j hj => ?_, fun r hr => ?_⟩
  · rw [hs] at hj; exact absurd hj (Nat.not_lt_zero _)
  · rw [hf] at hr; cases hr

/-- The mask and match of each format's rows are met by some word. -/
theorem test_witness_Encodes :
    (0x1FFF : Word) &&& 0xF000 = 0x1000 ∧ (0x3F00 : Word) &&& 0xF000 = 0x3000 ∧ (0x5FF0 : Word) &&& 0xF00F = 0x5000 ∧
    (0x8FFE : Word) &&& 0xF00F = 0x800E ∧ (0xDFFF : Word) &&& 0xF000 = 0xD000 ∧ (0xEF9E : Word) &&& 0xF0FF = 0xE09E ∧
    (0xFF65 : Word) &&& 0xF0FF = 0xF065 := by decide
theorem test_witness_EncodeOfDecodeIsTheWord : decode 0x8AB6 = .instr (.shrReg 0xA 0xB) := by decide
theorem test_witness_DecodeAgreesWithOpcodeTable :
    (⟨"FX65", 0xF0FF, 0xF065, .f⟩ : OpcodeRow) ∈ opcodeTable ∧ (0xFF65 : Word) &&& 0xF0FF = 0xF065 := by decide
theorem test_witness_StepRunsTheDecodedInstruction :
    (atEnd 0x2400).running ∧ (atEnd 0x2400).pc.toNat ≤ 0xFFE ∧
    decode ((atEnd 0x2400).mem.read 0xFFE ++ (atEnd 0x2400).mem.read 0xFFF) = .instr (.call 0x400) ∧
    after (exec (.call 0x400) (atEnd 0x2400)) (·.fault) = some none ∧
    after (exec (.call 0x400) { atEnd 0x2400 with sp := 16 }) (·.fault) = some (some ⟨.stackOverflow, 0xFFE, 0xFFE⟩) :=
  ⟨⟨rfl, rfl⟩, by decide, by decide, by decide, by decide⟩
theorem test_witness_StepBeforeResetIsRefused : { base with ready := false }.ready = false := by decide
theorem test_witness_HaltedStepChangesNothing :
    { base with fault := some ⟨.addressFault, 0x1000, 0x300⟩ }.ready = true ∧
    { base with fault := some ⟨.addressFault, 0x1000, 0x300⟩ }.fault = some ⟨.addressFault, 0x1000, 0x300⟩ := by decide
theorem test_witness_FetchOutsideMemoryFaults :
    ({ base with pc := 0xFFF } : State).running ∧ 0xFFE < ({ base with pc := 0xFFF } : State).pc.toNat ∧
    ({ base with pc := 0x1000 } : State).running ∧ 0xFFE < ({ base with pc := 0x1000 } : State).pc.toNat :=
  ⟨⟨rfl, rfl⟩, by decide, ⟨rfl, rfl⟩, by decide⟩
theorem test_witness_UndefinedWordIsACompletedStep :
    (atEnd 0x5121).running ∧ (atEnd 0x5121).pc.toNat ≤ 0xFFE ∧
    decode ((atEnd 0x5121).mem.read 0xFFE ++ (atEnd 0x5121).mem.read 0xFFF) = .undefined .undefinedClass5 :=
  ⟨⟨rfl, rfl⟩, by decide, by decide⟩
theorem test_witness_FaultingStepIsPrecise : (at300 0x00EE).running ∧ ∃ t, step (at300 0x00EE) = .next t ∧ t.fault ≠ none :=
  ⟨⟨rfl, rfl⟩, _, rfl, by decide⟩
theorem test_witness_EveryStepReportsItsOutcome : base.ready = true := by decide
theorem test_witness_EachFaultHasItsInstructions :
    base.fault = none ∧ after (exec .ret base) (·.fault) = some (some ⟨.stackUnderflow, 0x300, 0x300⟩) ∧
    after (exec (.call 0) { base with sp := 16 }) (·.fault) = some (some ⟨.stackOverflow, 0x300, 0x300⟩) ∧
    after (exec (.ldStore 0xF) { base with i := 0xFF1 }) (·.fault) = some (some ⟨.addressFault, 0x1000, 0x300⟩) ∧
    after (exec (.ldStore 0xF) { base with i := 0xFF0 }) (·.fault) = some none ∧
    after (exec (.ldB 1) { base with i := 0xFFE }) (·.fault) = some (some ⟨.addressFault, 0x1000, 0x300⟩) ∧
    after (exec (.drw 0 0 2) { base with i := 0xFFF }) (·.fault) = some (some ⟨.addressFault, 0x1000, 0x300⟩) ∧
    after (exec (.drw 0 0 0) { base with i := 0xFFFF }) (·.fault) = some none ∧
    after (exec (.skp 1) (base.setReg 1 0x10)) (·.fault) = some (some ⟨.keyIndexFault, 0x10, 0x300⟩) := by decide
theorem test_witness_CompletedStepTicksTheDelayTimer :
    (at300 0xF015).running ∧ (∃ t, step (at300 0xF015) = .next t ∧ t.fault = none) ∧ decode (fetchWord (at300 0xF015)) = .instr (.ldDt 0) ∧
    (at300 0x00E0).running ∧ (∃ t, step (at300 0x00E0) = .next t ∧ t.fault = none) ∧
    ∀ x, decode (fetchWord (at300 0x00E0)) ≠ .instr (.ldDt x) :=
  ⟨⟨rfl, rfl⟩, ⟨_, rfl, rfl⟩, by decide, ⟨rfl, rfl⟩, ⟨_, rfl, rfl⟩, by decide⟩
theorem test_witness_DelayTimerCountsCompletedSteps :
    ∃ run : Nat → State, (run 0).running ∧ (run 0).dt = 5 ∧ ∀ j, j < 1 → step (run j) = .next (run (j + 1)) ∧ (run (j + 1)).fault = none ∧
      ∀ x, decode (fetchWord (run j)) ≠ .instr (.ldDt x) := by
  refine ⟨fun j => match j with | 0 => { at300 0x00E0 with dt := 5 } | _ => (exec .cls { at300 0x00E0 with dt := 5 } |> completeStep |> fun r =>
    match r with | .next t => t | _ => base), ⟨rfl, rfl⟩, rfl, fun j hj => ?_⟩
  obtain rfl : j = 0 := by omega
  exact ⟨rfl, rfl, by decide⟩
theorem test_witness_EveryStepKeepsTheInvariant : Inv (at300 0x2400) ∧ ∃ t, step (at300 0x2400) = .next t ∧ t.sp = 1 :=
  ⟨inv_of_empty _ (by decide) (by decide) (by decide), _, rfl, by decide⟩
theorem test_witness_ReachableStatesMeetTheInvariant : Reachable (reset base) ∧ ∃ t, command .step (reset base) = .next t :=
  ⟨.afterReset base, _, rfl⟩
theorem test_witness_ReturnNeverWrapsPc :
    0 < ({ base with sp := 1, stack := base.stack.set 0 0xFFE } : State).sp.val ∧ Inv { base with sp := 1, stack := base.stack.set 0 0xFFE } := by
  refine ⟨by decide, by decide, ?_, fun r hr => by cases hr⟩
  show ∀ j : Fin 16, _ → _
  decide
theorem test_witness_EachStateElementHasItsWriters :
    after (exec (.ldI 1) base) (·.i) = some 1 ∧ after (exec (.ldStore 0) (base.setReg 0 7)) (·.mem.read 0) = some 7 ∧
    base.mem.read 0 ≠ 7 ∧ after (exec (.call 0) base) (fun t => (t.stack[0], t.sp)) = some (0x300, 1) ∧
    after (exec .cls { base with fb := fbOf [(63, 31)] }) (fun t => (pixel t.fb 63 31, t.redraw)) = some (false, true) ∧
    after (exec (.ldDt 1) (base.setReg 1 9)) (·.dt) = some 9 ∧ after (exec (.ldSt 1) (base.setReg 1 9)) (·.st) = some 9 ∧
    after (exec (.rnd 1 0) base) (·.draws) = some 1 := by decide
theorem test_witness_EachRegisterHasItsWriters :
    after (exec (.ldImm 3 9) base) (·.reg 3) = some 9 ∧ after (exec (.addI 3) { base with i := 0x1000 }) (·.reg 0xF) = some 1 ∧
    after (exec (.ldLoad 3) { base with mem := base.mem.write 0x402 9, i := 0x400 }) (·.reg 2) = some 9 := by decide
theorem test_witness_OtherInstructionsIgnoreTheKeypad :
    (Instr.ldImm 1 2).mnemonic ∉ ["EX9E", "EXA1", "FX0A"] ∧ ∃ t, exec (.ldImm 1 2) base = .next t := ⟨by decide, _, rfl⟩
theorem test_witness_NoInstructionReadsTheSoundTimer :
    (∃ t, exec (.ldSt 1) base = .next t) ∧ (Instr.ldSt 1).mnemonic = "FX18" ∧ (∃ t, exec .cls base = .next t) ∧ Instr.cls.mnemonic ≠ "FX18" :=
  ⟨⟨_, rfl⟩, by decide, ⟨_, rfl⟩, by decide⟩
theorem test_witness_LoadPutsTheProgramAtItsPlace : (List.replicate 3584 (0xAA : Byte)).length ≤ 3584 := by
  rw [List.length_replicate]
theorem test_witness_LoadOfTooManyBytesFailsAtACleanReset : 3584 < (List.replicate 3585 (0xAA : Byte)).length := by
  rw [List.length_replicate]; decide
theorem test_witness_DrawSpriteXorsTheWrappedBits :
    ((0 : Rows) = 0 ∨ ({ base with i := 0xFFFF } : State).i.toNat + (0 : Rows).toNat ≤ 0x1000) ∧
    ({ base with i := 0xFF1 } : State).i.toNat + (0xF : Rows).toNat ≤ 0x1000 ∧
    (base.mem.write 0x400 0x80).read 0x400 = 0x80 ∧ ((0x80 : Byte).getLsbD (7 - 0)) = true ∧
    pixel (fbOf [(0, 0)]) 0 0 = true ∧ pixel base.fb 0 0 = false := by decide
theorem test_witness_DrawOutsideMemoryFaults :
    (2 : Rows) ≠ 0 ∧ 0x1000 < ({ base with i := 0xFFF } : State).i.toNat + (2 : Rows).toNat := by decide
theorem test_witness_DrawingTwiceRestoresThePixels :
    (0 : Reg) ≠ 0xF ∧ (1 : Reg) ≠ 0xF ∧ base.i.toNat + (1 : Rows).toNat ≤ 0x1000 ∧ after (exec (.drw 0 1 1) base) (·.reg 0xF) = some 0 ∧
    (base.mem.read (base.i.toNat + 0)).getLsbD (7 - 0) = true := by decide
theorem test_witness_CallPushesItsOwnAddress :
    ({ base with sp := 15 } : State).sp.val < 16 ∧ ({ base with sp := 16 } : State).sp.val = 16 := by decide
theorem test_witness_ReturnGoesPastTheCall : 0 < ({ base with sp := 16 } : State).sp.val ∧ base.sp.val = 0 := by decide
theorem test_witness_ReturnUndoesCall : ({ base with sp := 15 } : State).sp.val < 16 := by decide
theorem test_witness_SkipsCompareTwoRegisters : (0x5FFF : Word).toNat / 0x1000 = 5 ∧ (0x9001 : Word).toNat / 0x1000 = 9 ∧ (0x9001 : Word).toNat % 0x10 ≠ 0 := by decide
theorem test_witness_flagged_results : (0xE : Reg) ≠ 0xF ∧ (0 : Byte) = 0 := by decide
theorem test_witness_BcdStoresTheThreeDigits :
    base.mem.wf = true ∧ ({ base with i := 0xFFD } : State).i.toNat + 2 ≤ 0xFFF ∧ 0xFFF < ({ base with i := 0xFFE } : State).i.toNat + 2 := by decide
theorem test_witness_StoreAndLoadRegisters :
    base.mem.wf = true ∧ ({ base with i := 0xFF0 } : State).i.toNat + (0xF : Reg).toNat ≤ 0xFFF ∧
    0xFFF < ({ base with i := 0xFF1 } : State).i.toNat + (0xF : Reg).toNat := by decide
theorem test_witness_KeySkipsReadTheKeyOfVX :
    ((base.setReg 1 0xF).reg 1).toNat = (15 : Fin 16).val ∧ 0xF < ((base.setReg 1 0x10).reg 1).toNat := by decide
theorem test_witness_WaitKeyTakesTheLeastPressedKey :
    (base.key.set 15 true)[(15 : Fin 16)] = true ∧ (∀ j : Fin 16, j < 15 → (base.key.set 15 true)[j] = false) ∧ ∀ k : Fin 16, base.key[k] = false := by decide
theorem test_witness_ReadDelayTimerBeforeItsTick :
    (atEnd 0xF107).running ∧ (atEnd 0xF107).pc.toNat ≤ 0xFFE ∧ decode (fetchWord (atEnd 0xF107)) = .instr (.ldVDt 1) :=
  ⟨⟨rfl, rfl⟩, by decide, by decide⟩
theorem test_witness_StepKeepsTheSoundTimer :
    ((at300 0xF318).setReg 3 0x20).running ∧ ((at300 0xF318).setReg 3 0x20).pc.toNat ≤ 0xFFE ∧
    decode (fetchWord ((at300 0xF318).setReg 3 0x20)) = .instr (.ldSt 3) ∧
    after (step ((at300 0xF318).setReg 3 0x20)) (·.st) = some 0x20 ∧ base.st ≠ 0x20 :=
  ⟨⟨rfl, rfl⟩, by decide, by decide, by decide, by decide⟩
theorem test_witness_PlacedWordIsFetched : base.mem.wf = true ∧ 0xFFFF < 0x10000 ∧ base.running ∧ base.pc.toNat ≤ 0xFFE :=
  ⟨by decide, by decide, ⟨rfl, rfl⟩, by decide⟩

end Sys2Proof.Tests
end

section
/-! PROOFS. Display (spec 41_display.md): the word of 00E0 and what the instruction does (R62). -/

namespace Sys2Proof

/-! The second-level dispatches of R53 and 00E0: it lies in class 0, so none of them answers it. -/

theorem decodeAlu_ne_cls (x y : Reg) (function : Nat) : decodeAlu x y function ≠ .instr .cls := by
  unfold decodeAlu
  split <;> simp

theorem decodeKey_ne_cls (x : Reg) (function : Nat) : decodeKey x function ≠ .instr .cls := by
  unfold decodeKey
  split <;> simp

theorem decodeMisc_ne_cls (x : Reg) (function : Nat) : decodeMisc x function ≠ .instr .cls := by
  unfold decodeMisc
  split <;> simp

/-- The decoder answers 00E0 for its own word and no other (R52, R53): in class 0 the whole word is compared, and every other class answers
instructions of its own. The case `h_k` is class k - 1. -/
theorem decode_eq_cls_iff (op : Word) : decode op = .instr .cls ↔ op = 0x00E0 := by
  constructor
  · unfold decode
    split
    case h_1 =>
      split
      · next hop => exact fun _ => hop
      · split <;> simp
    case h_6 => split <;> simp
    case h_9 => exact fun h => absurd h (decodeAlu_ne_cls _ _ _)
    case h_10 => split <;> simp
    case h_15 => exact fun h => absurd h (decodeKey_ne_cls _ _)
    case h_16 => exact fun h => absurd h (decodeMisc_ne_cls _ _)
    all_goals simp
  · rintro rfl
    decide

namespace Machine

/-- `advance` is the addition of R17 in unbounded numbers. -/
theorem pcPlus_advance (s : State) : PcPlus 2 s s.advance := BitVec.toNat_add s.pc 2

/-- The state after 00E0 (R62). -/
def clearedScreen (s : State) : State := { s with fb := blankFramebuffer, redraw := true }.advance

theorem exec_cls (s : State) : exec .cls s = .next (clearedScreen s) := rfl

theorem pixel_clearedScreen (s : State) (x : Fin 64) (y : Fin 32) : pixel (clearedScreen s).fb x y = false := pixel_blank x y

theorem pcPlus_clearedScreen (s : State) : PcPlus 2 s (clearedScreen s) := pcPlus_advance _

end Machine
end Sys2Proof

open Sys2Proof Sys2Proof.Machine

/-- Settles O28: the word by the dispatch of the decoder, the state by the field lemmas of `advance`; what 00E0 keeps is not named by its
update. -/
theorem clearScreen : Obligations.ClearScreen := by
  unfold Obligations.ClearScreen
  refine ⟨fun op => (decode_eq_cls_iff op).symm, fun s => ⟨clearedScreen s, exec_cls s, ?_⟩⟩
  have keepsRegs : KeepsRegsBut [] s (clearedScreen s) := fun _ _ => rfl
  have keepsMemory : KeepsMemory s (clearedScreen s) := fun _ => rfl
  have keepsStack : KeepsStack s (clearedScreen s) := ⟨rfl, rfl⟩
  have keepsTimers : KeepsTimers s (clearedScreen s) := ⟨rfl, rfl⟩
  have keepsControl : KeepsControl s (clearedScreen s) := ⟨rfl, rfl, rfl, rfl, rfl⟩
  exact ⟨pixel_clearedScreen s, rfl, pcPlus_clearedScreen s, keepsRegs, rfl, keepsMemory, keepsStack, keepsTimers, keepsControl, rfl⟩
end

section
/-! PROOFS. Control flow (spec 42_control_flow.md): the words of 3XNN and 4XNN, what a skip does, and the immediate compares (R70, R71). -/

namespace Sys2Proof

/-! Classes 3 and 4 have one instruction each, which the class alone selects (R53). -/

theorem decode_of_class_3 (op : Word) (hclass : classOf op = 0x3) : decode op = .instr (.seImm (fieldX op) (fieldNN op)) := by
  rw [decode, hclass]
  rfl

theorem decode_of_class_4 (op : Word) (hclass : classOf op = 0x4) : decode op = .instr (.sneImm (fieldX op) (fieldNN op)) := by
  rw [decode, hclass]
  rfl

namespace Machine

/-- Every word 0x3XNN is 3XNN (R52, R70). -/
theorem encodes_seImm : Encodes 0xF000 0x3000 (fun op => .seImm (fieldX op) (fieldNN op)) := fun op hop =>
  decode_of_class_3 op (classOf_of_mask_F000 op 0x3000 hop)

/-- Every word 0x4XNN is 4XNN (R52, R71). -/
theorem encodes_sneImm : Encodes 0xF000 0x4000 (fun op => .sneImm (fieldX op) (fieldNN op)) := fun op hop =>
  decode_of_class_4 op (classOf_of_mask_F000 op 0x4000 hop)

/-- A skip adds 4 or 2 to pc, in unbounded numbers (R17, R58). -/
theorem pcPlus_skipIf (s : State) (c : Bool) : PcPlus (if c then 4 else 2) s (s.skipIf c) := by
  cases c
  case false => exact BitVec.toNat_add s.pc 2
  case true => exact BitVec.toNat_add s.pc 4

/-- A skip changes nothing but pc (R64). -/
theorem changesOnlyPc_skipIf (s : State) (c : Bool) : ChangesOnlyPcAndRegs [] s (s.skipIf c) := by
  have keepsRegs : KeepsRegsBut [] s (s.skipIf c) := fun r _ => reg_skipIf s c r
  have keepsMemory : KeepsMemory s (s.skipIf c) := fun _ => rfl
  have keepsStack : KeepsStack s (s.skipIf c) := ⟨rfl, rfl⟩
  have keepsDisplay : KeepsDisplay s (s.skipIf c) := ⟨fun _ _ => rfl, rfl⟩
  have keepsTimers : KeepsTimers s (s.skipIf c) := ⟨rfl, rfl⟩
  have keepsControl : KeepsControl s (s.skipIf c) := ⟨rfl, rfl, rfl, rfl, rfl⟩
  exact ⟨keepsRegs, rfl, keepsMemory, keepsStack, keepsDisplay, keepsTimers, keepsControl, rfl⟩

/-- A skip on equal bytes, the bytes compared as numbers (R70, R72). -/
theorem pcPlus_skipIf_beq (s : State) (a b : Byte) : PcPlus (if a.toNat = b.toNat then 4 else 2) s (s.skipIf (a == b)) := by
  simpa only [beq_iff_eq, BitVec.toNat_inj] using pcPlus_skipIf s (a == b)

/-- A skip on different bytes, the bytes compared as numbers (R71, R73). -/
theorem pcPlus_skipIf_bne (s : State) (a b : Byte) : PcPlus (if a.toNat = b.toNat then 2 else 4) s (s.skipIf (a != b)) := by
  simpa only [bne_iff_ne, ne_eq, ite_not, BitVec.toNat_inj] using pcPlus_skipIf s (a != b)

theorem exec_seImm (x : Reg) (nn : Byte) (s : State) : exec (.seImm x nn) s = .next (s.skipIf (s.reg x == nn)) := rfl

theorem exec_sneImm (x : Reg) (nn : Byte) (s : State) : exec (.sneImm x nn) s = .next (s.skipIf (s.reg x != nn)) := rfl

end Machine
end Sys2Proof

open Sys2Proof Sys2Proof.Machine

/-- Settles O37: the words by their class, the next state of both instructions as a skip on the comparison of VX with NN. -/
theorem skipsCompareWithAnImmediate : Obligations.SkipsCompareWithAnImmediate := by
  unfold Obligations.SkipsCompareWithAnImmediate
  refine ⟨encodes_seImm, encodes_sneImm, fun x nn s => ⟨?_, ?_⟩⟩
  · exact ⟨_, exec_seImm x nn s, pcPlus_skipIf_beq s (s.reg x) nn, changesOnlyPc_skipIf s _⟩
  · exact ⟨_, exec_sneImm x nn s, pcPlus_skipIf_bne s (s.reg x) nn, changesOnlyPc_skipIf s _⟩
end

section
/-! PROOFS. Loads and arithmetic (spec 43_alu.md): the words of 6XNN, 7XNN and 8XY0, what writing one register and moving on does, and the three
instructions (R77, R78, R79). -/

namespace Sys2Proof

/-! The class alone selects 6XNN and 7XNN; in class 8 the low nibble selects the function (R53). -/

theorem decode_of_class_6 (op : Word) (hclass : classOf op = 0x6) : decode op = .instr (.ldImm (fieldX op) (fieldNN op)) := by
  rw [decode, hclass]
  rfl

theorem decode_of_class_7 (op : Word) (hclass : classOf op = 0x7) : decode op = .instr (.addImm (fieldX op) (fieldNN op)) := by
  rw [decode, hclass]
  rfl

theorem decode_of_class_8 (op : Word) (hclass : classOf op = 0x8) :
    decode op = decodeAlu (fieldX op) (fieldY op) (fieldN op).toNat := by
  rw [decode, hclass]
  rfl

/-- A pattern of class 8 fixes the function of every word that matches it (R52, R53). -/
theorem decode_of_mask_F00F_class_8 (op pattern : Word) (hop : op &&& 0xF00F = pattern) (hclass : classOf pattern = 0x8) :
    decode op = decodeAlu (fieldX op) (fieldY op) (fieldN pattern).toNat := by
  obtain ⟨hc, hn⟩ := fields_of_mask_F00F op pattern hop
  rw [decode_of_class_8 op (hc.trans hclass), hn]

namespace Machine

/-- Every word 0x6XNN is 6XNN (R52, R77). -/
theorem encodes_ldImm : Encodes 0xF000 0x6000 (fun op => .ldImm (fieldX op) (fieldNN op)) := fun op hop =>
  decode_of_class_6 op (classOf_of_mask_F000 op 0x6000 hop)

/-- Every word 0x7XNN is 7XNN (R52, R78). -/
theorem encodes_addImm : Encodes 0xF000 0x7000 (fun op => .addImm (fieldX op) (fieldNN op)) := fun op hop =>
  decode_of_class_7 op (classOf_of_mask_F000 op 0x7000 hop)

/-- Every word 0x8XY0 is 8XY0 (R52, R79). -/
theorem encodes_ldReg : Encodes 0xF00F 0x8000 (fun op => .ldReg (fieldX op) (fieldY op)) := fun op hop =>
  decode_of_mask_F00F_class_8 op 0x8000 hop rfl

/-! One register written, then pc + 2: the whole effect of 6XNN, 7XNN and 8XY0 to 8XY3. -/

theorem reg_setReg_advance (s : State) (x : Reg) (b : Byte) : (s.setReg x b).advance.reg x = b := by
  rw [reg_advance, reg_setReg_same]

theorem pcPlus_setReg_advance (s : State) (x : Reg) (b : Byte) : PcPlus 2 s (s.setReg x b).advance :=
  pcPlus_advance (s.setReg x b)

theorem keepsRegsBut_setReg_advance (s : State) (x : Reg) (b : Byte) : KeepsRegsBut [x] s (s.setReg x b).advance := by
  intro r hr
  rw [reg_advance, reg_setReg_other s x r b (List.ne_of_not_mem_cons hr)]

/-- No flag is written: VF is a register as every other, changed only when it is x (R77, R78, R79). -/
theorem changesOnly_setReg_advance (s : State) (x : Reg) (b : Byte) : ChangesOnlyPcAndRegs [x] s (s.setReg x b).advance := by
  have keepsMemory : KeepsMemory s (s.setReg x b).advance := fun _ => rfl
  have keepsStack : KeepsStack s (s.setReg x b).advance := ⟨rfl, rfl⟩
  have keepsDisplay : KeepsDisplay s (s.setReg x b).advance := ⟨fun _ _ => rfl, rfl⟩
  have keepsTimers : KeepsTimers s (s.setReg x b).advance := ⟨rfl, rfl⟩
  have keepsControl : KeepsControl s (s.setReg x b).advance := ⟨rfl, rfl, rfl, rfl, rfl⟩
  exact ⟨keepsRegsBut_setReg_advance s x b, rfl, keepsMemory, keepsStack, keepsDisplay, keepsTimers, keepsControl, rfl⟩

theorem exec_ldImm (x : Reg) (nn : Byte) (s : State) : exec (.ldImm x nn) s = .next (s.setReg x nn).advance := rfl

theorem exec_addImm (x : Reg) (nn : Byte) (s : State) : exec (.addImm x nn) s = .next (s.setReg x (s.reg x + nn)).advance := rfl

theorem exec_ldReg (x y : Reg) (s : State) : exec (.ldReg x y) s = .next (s.setReg x (s.reg y)).advance := rfl

/-- The byte sum is the sum of the numbers modulo 256 (R75). -/
theorem reg_setReg_add_advance_toNat (s : State) (x : Reg) (a b : Byte) :
    ((s.setReg x (a + b)).advance.reg x).toNat = (a.toNat + b.toNat) % 256 := by
  rw [reg_setReg_advance, BitVec.toNat_add]

end Machine
end Sys2Proof

open Sys2Proof Sys2Proof.Machine

/-- Settles O39: the words by their class, the next state of both instructions as one register written with pc moved on. -/
theorem immediateLoadAndAdd : Obligations.ImmediateLoadAndAdd := by
  unfold Obligations.ImmediateLoadAndAdd
  refine ⟨encodes_ldImm, encodes_addImm, fun x nn s => ⟨?_, ?_⟩⟩
  · exact ⟨_, exec_ldImm x nn s, reg_setReg_advance s x nn, pcPlus_setReg_advance s x nn, changesOnly_setReg_advance s x nn⟩
  · exact ⟨_, exec_addImm x nn s, reg_setReg_add_advance_toNat s x (s.reg x) nn, pcPlus_setReg_advance s x _,
      changesOnly_setReg_advance s x _⟩

/-- Settles O40: the word by its class and function nibble, the next state as VX written with VY and pc moved on. -/
theorem copyRegister : Obligations.CopyRegister := by
  unfold Obligations.CopyRegister
  refine ⟨encodes_ldReg, fun x y s => ?_⟩
  exact ⟨_, exec_ldReg x y s, reg_setReg_advance s x _, pcPlus_setReg_advance s x _, changesOnly_setReg_advance s x _⟩
end

section
/-! PROOFS. Index register (spec 44_index_memory.md): the word of ANNN, what writing I and moving on does, and ANNN itself (R90). -/

namespace Sys2Proof

/-- Class A has one instruction, which the class alone selects (R53). -/
theorem decode_of_class_A (op : Word) (hclass : classOf op = 0xA) : decode op = .instr (.ldI (fieldNNN op)) := by
  rw [decode, hclass]
  rfl

namespace Machine

/-- Every word 0xANNN is ANNN (R52, R90). -/
theorem encodes_ldI : Encodes 0xF000 0xA000 (fun op => .ldI (fieldNNN op)) := fun op hop =>
  decode_of_class_A op (classOf_of_mask_F000 op 0xA000 hop)

/-- The zero extension of R51 keeps the number: NNN is at most 0xFFF, so nothing is cut. -/
theorem zext16_toNat (nnn : Addr12) : (zext16 nnn).toNat = nnn.toNat :=
  BitVec.toNat_setWidth_of_le (by decide)

/-- I written, then pc + 2: the whole effect of ANNN and FX29 (R90, R92). -/
def indexedAt (s : State) (a : Word) : State := { s with i := a }.advance

theorem exec_ldI (nnn : Addr12) (s : State) : exec (.ldI nnn) s = .next (indexedAt s (zext16 nnn)) := rfl

theorem indexedAt_i (s : State) (a : Word) : (indexedAt s a).i = a := rfl

theorem pcPlus_indexedAt (s : State) (a : Word) : PcPlus 2 s (indexedAt s a) := pcPlus_advance { s with i := a }

/-- What writing I leaves unchanged: every element but I and pc. -/
theorem indexedAt_frame (s : State) (a : Word) :
    KeepsRegsBut [] s (indexedAt s a) ∧ KeepsMemory s (indexedAt s a) ∧ KeepsStack s (indexedAt s a) ∧ KeepsDisplay s (indexedAt s a) ∧
    KeepsTimers s (indexedAt s a) ∧ KeepsControl s (indexedAt s a) ∧ KeepsDraws s (indexedAt s a) := by
  have keepsRegs : KeepsRegsBut [] s (indexedAt s a) := fun _ _ => rfl
  have keepsMemory : KeepsMemory s (indexedAt s a) := fun _ => rfl
  have keepsStack : KeepsStack s (indexedAt s a) := ⟨rfl, rfl⟩
  have keepsDisplay : KeepsDisplay s (indexedAt s a) := ⟨fun _ _ => rfl, rfl⟩
  have keepsTimers : KeepsTimers s (indexedAt s a) := ⟨rfl, rfl⟩
  have keepsControl : KeepsControl s (indexedAt s a) := ⟨rfl, rfl, rfl, rfl, rfl⟩
  exact ⟨keepsRegs, keepsMemory, keepsStack, keepsDisplay, keepsTimers, keepsControl, rfl⟩

end Machine
end Sys2Proof

open Sys2Proof Sys2Proof.Machine

/-- Settles O47: the word by its class, the next state as I written with the zero extension of NNN and pc moved on. -/
theorem loadIndex : Obligations.LoadIndex := by
  unfold Obligations.LoadIndex
  refine ⟨encodes_ldI, fun nnn s => ⟨indexedAt s (zext16 nnn), exec_ldI nnn s, ?_⟩⟩
  have index : (indexedAt s (zext16 nnn)).i.toNat = nnn.toNat := by rw [indexedAt_i, zext16_toNat]
  exact ⟨index, pcPlus_indexedAt s _, indexedAt_frame s _⟩
end

section
/-! PROOFS. Keypad and timers (spec 45_keys_timers.md): the word of FX07, what a whole step on a faultless instruction answers, and FX07 before
its own step's tick (R100). -/

namespace Sys2Proof

/-! In class F the low byte selects the function (R53). -/

theorem decode_of_class_F (op : Word) (hclass : classOf op = 0xF) : decode op = decodeMisc (fieldX op) (fieldNN op).toNat := by
  rw [decode, hclass]
  rfl

/-- A pattern of class F fixes the function of every word that matches it (R52, R53). -/
theorem decode_of_mask_F0FF_class_F (op pattern : Word) (hop : op &&& 0xF0FF = pattern) (hclass : classOf pattern = 0xF) :
    decode op = decodeMisc (fieldX op) (fieldNN pattern).toNat := by
  obtain ⟨hc, hnn⟩ := fields_of_mask_F0FF op pattern hop
  rw [decode_of_class_F op (hc.trans hclass), hnn]

namespace Machine

/-- Every word 0xFX07 is FX07 (R52, R100). -/
theorem encodes_ldVDt : Encodes 0xF0FF 0xF007 (fun op => .ldVDt (fieldX op)) := fun op hop =>
  decode_of_mask_F0FF_class_F op 0xF007 hop rfl

theorem exec_ldVDt (x : Reg) (s : State) : exec (.ldVDt x) s = .next (s.setReg x s.dt).advance := rfl

/-- A whole step on an instruction that raises no fault: Execute first, then the tick and `Ok` (R57, R112). -/
theorem step_of_exec_ok (s u : State) (i : Instr) (hr : s.running) (hpc : s.pc.toNat ≤ 0xFFE) (hd : decode (fetchWord s) = .instr i)
    (hexec : exec i s = .next u) (hfault : u.fault = none) : step s = .next (u.tick.answer .ok) := by
  rw [step_of_exec s i hr hpc hd, hexec, completeStep, complete_ok u hfault]

/-- The end of a step is after the register was written and does not touch it (R112). -/
theorem reg_setReg_advance_tick_answer (s : State) (x : Reg) (b : Byte) (r : Report) :
    ((s.setReg x b).advance.tick.answer r).reg x = b := by
  rw [reg_answer, reg_tick, reg_setReg_advance]

/-- Writing a register leaves DT to the tick alone (R112). -/
theorem dt_setReg_advance_tick_answer (s : State) (x : Reg) (b : Byte) (r : Report) :
    ((s.setReg x b).advance.tick.answer r).dt.toNat = s.dt.toNat - 1 := by
  rw [answer_dt, tick_dt_toNat, advance_dt, setReg_dt]

end Machine
end Sys2Proof

open Sys2Proof Sys2Proof.Machine

/-- Settles O56: the word by its class and function byte, the next state as VX written with DT and pc moved on, the whole step as the tick of
that state. -/
theorem readDelayTimerBeforeItsTick : Obligations.ReadDelayTimerBeforeItsTick := by
  unfold Obligations.ReadDelayTimerBeforeItsTick
  refine ⟨encodes_ldVDt, fun x s => ?_, fun x s hr hpc hd => ?_⟩
  · exact ⟨_, exec_ldVDt x s, reg_setReg_advance s x s.dt, pcPlus_setReg_advance s x s.dt, changesOnly_setReg_advance s x s.dt⟩
  · have noFault : (s.setReg x s.dt).advance.fault = none := hr.2
    have wholeStep := step_of_exec_ok s _ _ hr hpc hd (exec_ldVDt x s) noFault
    exact ⟨_, wholeStep, reg_setReg_advance_tick_answer s x s.dt .ok, dt_setReg_advance_tick_answer s x s.dt .ok⟩
end

section
/-! PROOFS. The encoder and the decoder undo each other (spec 30_encoding.md R50, R51, R52, R53). -/

namespace Sys2Proof

/-! A word is its class and its fields, in each format of R50, and its two bytes. -/

theorem encodeA_fields (op : Word) : encodeA (classOf op) (fieldNNN op) = op :=
  (BitVec.extractLsb'_append_extractLsb'_eq_extractLsb' (x := op) rfl).trans (BitVec.extractLsb'_eq_self ..)

theorem encodeR_fields (op : Word) : encodeR (classOf op) (fieldX op) (fieldNN op) = op := by
  have upper : classOf op ++ fieldX op = op.extractLsb' 8 8 := BitVec.extractLsb'_append_extractLsb'_eq_extractLsb' rfl
  rw [encodeR, upper]
  exact (BitVec.extractLsb'_append_extractLsb'_eq_extractLsb' rfl).trans (BitVec.extractLsb'_eq_self ..)

theorem encodeP_fields (op : Word) : encodeP (classOf op) (fieldX op) (fieldY op) (fieldN op) = op := by
  have upper : classOf op ++ fieldX op = op.extractLsb' 8 8 := BitVec.extractLsb'_append_extractLsb'_eq_extractLsb' rfl
  have upper3 : op.extractLsb' 8 8 ++ fieldY op = op.extractLsb' 4 12 := BitVec.extractLsb'_append_extractLsb'_eq_extractLsb' rfl
  rw [encodeP, upper, upper3]
  exact (BitVec.extractLsb'_append_extractLsb'_eq_extractLsb' rfl).trans (BitVec.extractLsb'_eq_self ..)

theorem wordOfBytes_highByte_lowByte (op : Word) : wordOfBytes (highByte op) (lowByte op) = op :=
  (BitVec.extractLsb'_append_extractLsb'_eq_extractLsb' (x := op) rfl).trans (BitVec.extractLsb'_eq_self ..)

/-- Format F is format R with the function byte for NN (R50). -/
theorem fields_encodeF (c : BitVec 4) (x : Reg) (f : Byte) :
    classOf (encodeF c x f) = c ∧ fieldX (encodeF c x f) = x ∧ fieldNN (encodeF c x f) = f :=
  fields_encodeR c x f

/-- The decoder reads back what the encoder wrote (R50, R53): both dispatch on the format, whose fields are read back. -/
theorem decode_encode (i : Instr) : decode (encode i) = .instr i := by
  cases i
  case cls | ret => decide
  case jp | call | ldI | jpV0 => simp [encode, decode, fields_encodeA]
  case seImm | sneImm | ldImm | addImm | rnd => simp [encode, decode, fields_encodeR]
  case seReg | sneReg | drw => simp [encode, decode, fields_encodeP]
  case ldReg | orReg | andReg | xorReg | addReg | subReg | shrReg | subnReg | shlReg =>
    simp [encode, decode, decodeAlu, fields_encodeP]
  case skp | sknp => simp [encode, decode, decodeKey, fields_encodeF]
  all_goals simp [encode, decode, decodeMisc, fields_encodeF]

/-! What a second-level dispatch answers is encoded with the function it dispatched on (R52, R53). -/

theorem encode_of_decodeAlu (x y : Reg) (n : BitVec 4) (i : Instr) (h : decodeAlu x y n.toNat = .instr i) :
    encode i = encodeP 0x8 x y n := by
  unfold decodeAlu at h
  split at h <;> cases h
  all_goals
    next function => exact congrArg (encodeP 0x8 x y) (BitVec.eq_of_toNat_eq function.symm)

theorem encode_of_decodeKey (x : Reg) (f : Byte) (i : Instr) (h : decodeKey x f.toNat = .instr i) :
    encode i = encodeF 0xE x f := by
  unfold decodeKey at h
  split at h <;> cases h
  all_goals
    next function => exact congrArg (encodeF 0xE x) (BitVec.eq_of_toNat_eq function.symm)

theorem encode_of_decodeMisc (x : Reg) (f : Byte) (i : Instr) (h : decodeMisc x f.toNat = .instr i) :
    encode i = encodeF 0xF x f := by
  unfold decodeMisc at h
  split at h <;> cases h
  all_goals
    next function => exact congrArg (encodeF 0xF x) (BitVec.eq_of_toNat_eq function.symm)

/-- A word that decodes is the word of its instruction (R50, R53). The case `h_k` is class k - 1: there the class is known, the fields are the
operands, and class and fields make the word. -/
theorem encode_of_decode (op : Word) (i : Instr) (h : decode op = .instr i) : encode i = op := by
  have wordA (c : BitVec 4) (hc : (classOf op).toNat = c.toNat) : encodeA c (fieldNNN op) = op := by
    rw [← BitVec.eq_of_toNat_eq hc, encodeA_fields]
  have wordR (c : BitVec 4) (hc : (classOf op).toNat = c.toNat) : encodeR c (fieldX op) (fieldNN op) = op := by
    rw [← BitVec.eq_of_toNat_eq hc, encodeR_fields]
  have wordP (c : BitVec 4) (hc : (classOf op).toNat = c.toNat) : encodeP c (fieldX op) (fieldY op) (fieldN op) = op := by
    rw [← BitVec.eq_of_toNat_eq hc, encodeP_fields]
  unfold decode at h
  split at h
  case h_1 =>
    split at h
    · next hop => cases h; exact hop.symm
    · split at h
      · next hop => cases h; exact hop.symm
      · cases h
  case h_2 hc | h_3 hc | h_11 hc | h_12 hc => cases h; exact wordA _ hc
  case h_4 hc | h_5 hc | h_7 hc | h_8 hc | h_13 hc => cases h; exact wordR _ hc
  case h_6 hc | h_10 hc =>
    split at h
    · next hn =>
      cases h
      exact (congrArg (encodeP _ (fieldX op) (fieldY op)) hn.symm).trans (wordP _ hc)
    · cases h
  case h_9 hc => exact (encode_of_decodeAlu _ _ _ _ h).trans (wordP 0x8 hc)
  case h_14 hc => cases h; exact wordP _ hc
  case h_15 hc => exact (encode_of_decodeKey _ _ _ h).trans (wordR 0xE hc)
  case h_16 =>
    have hlt := (classOf op).isLt
    have hc : (classOf op).toNat = 0xF := by grind
    exact (encode_of_decodeMisc _ _ _ h).trans (wordR 0xF hc)

end Sys2Proof

open Sys2Proof

/-- Settles O2: format by format the fields of a word are read back; its two bytes make the word again. -/
theorem decodeOfEncodeIsTheInstruction : Obligations.DecodeOfEncodeIsTheInstruction := by
  unfold Obligations.DecodeOfEncodeIsTheInstruction
  intro i
  refine ⟨decode_encode i, fun rest => ?_⟩
  show (decode (wordOfBytes (highByte (encode i)) (lowByte (encode i))), rest) = _
  rw [wordOfBytes_highByte_lowByte, decode_encode]

/-- Settles O3: class by class, the word is put together again from its class and the operands it was decoded to. -/
theorem encodeOfDecodeIsTheWord : Obligations.EncodeOfDecodeIsTheWord := by
  unfold Obligations.EncodeOfDecodeIsTheWord
  exact encode_of_decode
end

section
/-! PROOFS. What an instruction can do, said once (spec 30_encoding.md R57, 60_exceptions.md R105, R107): either it takes the one fault
that `faultOf` names and changes nothing else, or it answers the state that `effect` names, which has no check left in it. -/

namespace Sys2Proof.Machine

/-- The fault of a range check, if it raises one (R36). -/
def rangeFault (a n : Nat) : Option (FaultKind × Nat) :=
  if n ≠ 0 ∧ 0x1000 < a + n then some (.addressFault, max a 0x1000) else none

/-- The fault of a key check, if it raises one (R96). -/
def keyFault (b : Byte) : Option (FaultKind × Nat) :=
  if 0xF < b.toNat then some (.keyIndexFault, b.toNat) else none

/-- The kind and info of the fault that an instruction raises in a state, if it raises one (R107). -/
def faultOf (i : Instr) (s : State) : Option (FaultKind × Nat) :=
  match i with
  | .ret => if s.sp.val = 0 then some (.stackUnderflow, s.pc.toNat) else none
  | .call _ => if s.sp.val = 16 then some (.stackOverflow, s.pc.toNat) else none
  | .drw _ _ n => rangeFault s.indexAddress n.toNat
  | .ldB _ => rangeFault s.indexAddress 3
  | .ldStore x => rangeFault s.indexAddress (x.toNat + 1)
  | .ldLoad x => rangeFault s.indexAddress (x.toNat + 1)
  | .skp x => keyFault (s.reg x)
  | .sknp x => keyFault (s.reg x)
  | _ => none

/-- The state after 00EE with an occupied slot (R66, R67). -/
def returned (s : State) : State :=
  { s with pc := s.stack[s.sp.val - 1] + 2, sp := ⟨s.sp.val - 1, by omega⟩ }

/-- The state after 2NNN with a free slot (R65, R69). -/
def called (nnn : Addr12) (s : State) : State :=
  { s with pc := zext16 nnn, stack := s.stack.setIfInBounds s.sp.val s.pc, sp := ⟨min (s.sp.val + 1) 16, by omega⟩ }

/-- The state after DXYN whose reads are in range (R63). -/
def drawn (x y : Reg) (n : Rows) (s : State) : State :=
  ({ s with fb := (drawSprite x y n s).fb, redraw := true }.setFlag (drawSprite x y n s).hit).advance

/-- Whether the key whose number is `b` is pressed (R97). -/
def keyDown (s : State) (b : Byte) : Bool := (keyIndex b).any (fun k => s.key[k])

/-- The state after FX0A, which waits by changing nothing (R99). -/
def polled (x : Reg) (s : State) : State :=
  (leastPressed s.key).elim s (fun k => (s.setReg x (BitVec.ofNat 8 k.val)).advance)

/-- The state after bytes are stored at I, pc moved on (R93, R94). -/
def storedAtIndex (s : State) (bytes : List Byte) (i : Word) : State :=
  { s with mem := s.mem.storeBytes s.indexAddress bytes, i := i }.advance

/-- The state after V0..VX are loaded from I, I and pc moved on (R95). -/
def loadedFromIndex (x : Reg) (s : State) : State :=
  { s with v := setRegsFrom s.v 0 (s.mem.readBytes s.indexAddress (x.toNat + 1)), i := indexPast s.i x }.advance

/-- The state after an instruction that raises no fault. -/
def effect (i : Instr) (s : State) : State :=
  match i with
  | .cls => clearedScreen s
  | .ret => returned s
  | .jp nnn => s.jump (zext16 nnn)
  | .call nnn => called nnn s
  | .seImm x nn => s.skipIf (s.reg x == nn)
  | .sneImm x nn => s.skipIf (s.reg x != nn)
  | .seReg x y => s.skipIf (s.reg x == s.reg y)
  | .ldImm x nn => (s.setReg x nn).advance
  | .addImm x nn => (s.setReg x (s.reg x + nn)).advance
  | .ldReg x y => (s.setReg x (s.reg y)).advance
  | .orReg x y => (s.setReg x (s.reg x ||| s.reg y)).advance
  | .andReg x y => (s.setReg x (s.reg x &&& s.reg y)).advance
  | .xorReg x y => (s.setReg x (s.reg x ^^^ s.reg y)).advance
  | .addReg x y => (s.setRegFlag x (s.reg x + s.reg y) (carry (s.reg x) (s.reg y))).advance
  | .subReg x y => (s.setRegFlag x (s.reg x - s.reg y) (notBorrow (s.reg x) (s.reg y))).advance
  | .shrReg x _ => (s.setRegFlag x (s.reg x >>> 1) (bitZero (s.reg x))).advance
  | .subnReg x y => (s.setRegFlag x (s.reg y - s.reg x) (subnFlag (s.reg x) (s.reg y))).advance
  | .shlReg x _ => (s.setRegFlag x (s.reg x <<< 1) (bitSeven (s.reg x))).advance
  | .sneReg x y => s.skipIf (s.reg x != s.reg y)
  | .ldI nnn => indexedAt s (zext16 nnn)
  | .jpV0 nnn => s.jump (offsetTarget nnn (s.reg v0))
  | .rnd x nn => { randomAnd (Config.randomByte s.draws) x nn s with draws := s.draws + 1 }
  | .drw x y n => drawn x y n s
  | .skp x => s.skipIf (keyDown s (s.reg x))
  | .sknp x => s.skipIf (!keyDown s (s.reg x))
  | .ldVDt x => (s.setReg x s.dt).advance
  | .ldVK x => polled x s
  | .ldDt x => { s with dt := s.reg x }.advance
  | .ldSt x => { s with st := s.reg x }.advance
  | .addI x => ({ s with i := indexPlus s.i (s.reg x) }.setFlag (indexAboveLimit (indexPlus s.i (s.reg x)))).advance
  | .ldF x => indexedAt s (glyphAddress (s.reg x))
  | .ldB x => storedAtIndex s (bcdDigits (s.reg x)) s.i
  | .ldStore x => storedAtIndex s (s.regsUpTo x) (indexPast s.i x)
  | .ldLoad x => loadedFromIndex x s

/-- What a state answers that takes a fault, if there is one, before an effect (R105). -/
def State.guarded (s : State) (fault : Option (FaultKind × Nat)) (effect : State) : Result :=
  fault.elim (.next effect) (fun f => s.raise f.1 f.2)

/-- A range check raises `rangeFault` or lets the effect pass (R36). -/
theorem checkRange_eq (s e : State) (a n : Nat) : s.checkRange a n e = s.guarded (rangeFault a n) e := by
  unfold rangeFault
  rcases checkRange_cases s e a n with ⟨hin, h⟩ | ⟨hout, h⟩
  · rw [if_neg (by omega), h]; rfl
  · rw [if_pos hout, h]; rfl

theorem execRet_eq (s : State) : execRet s = s.guarded (if s.sp.val = 0 then some (.stackUnderflow, s.pc.toNat) else none) (returned s) := by
  unfold execRet
  rcases pop_cases s with ⟨hsp, h⟩ | ⟨hsp, p, hp, h⟩
  · rw [h, if_pos hsp]; rfl
  · have hp' : ⟨s.sp.val - 1, by omega⟩ = p := Fin.ext hp.symm
    rw [h, if_neg (by omega), returned, hp']; rfl

theorem execCall_eq (nnn : Addr12) (s : State) :
    execCall nnn s = s.guarded (if s.sp.val = 16 then some (.stackOverflow, s.pc.toNat) else none) (called nnn s) := by
  unfold execCall
  rcases push_cases s s.pc with ⟨hsp, h⟩ | ⟨hsp, p, hp, h⟩
  · rw [h, if_pos hsp]; rfl
  · have hp' : ⟨min (s.sp.val + 1) 16, by omega⟩ = p := Fin.ext (by show min _ _ = _; omega)
    have hstack : s.stack.setIfInBounds s.sp.val s.pc = s.stack.set s.sp.val s.pc :=
      Vector.ext fun j hj => by rw [Vector.getElem_setIfInBounds, Vector.getElem_set]
    rw [h, if_neg (by omega), called, hp', hstack]; rfl

/-- The key check finds a key or raises the fault (R96). -/
theorem keyIndex_cases (b : Byte) :
    (keyIndex b = none ∧ keyFault b = some (.keyIndexFault, b.toNat)) ∨ ∃ k, keyIndex b = some k ∧ keyFault b = none := by
  cases h : keyIndex b with
  | none =>
    have := (keyIndex_none b).1 h
    exact .inl ⟨rfl, if_pos (by omega)⟩
  | some k =>
    have := (keyIndex_some b k).1 h
    exact .inr ⟨k, rfl, if_neg (by omega)⟩

theorem execSkp_eq (x : Reg) (s : State) : execSkp x s = s.guarded (keyFault (s.reg x)) (s.skipIf (keyDown s (s.reg x))) := by
  unfold execSkp keyDown
  rcases keyIndex_cases (s.reg x) with ⟨h, hf⟩ | ⟨k, h, hf⟩ <;> rw [h, hf] <;> rfl

theorem execSknp_eq (x : Reg) (s : State) : execSknp x s = s.guarded (keyFault (s.reg x)) (s.skipIf (!keyDown s (s.reg x))) := by
  unfold execSknp keyDown
  rcases keyIndex_cases (s.reg x) with ⟨h, hf⟩ | ⟨k, h, hf⟩ <;> rw [h, hf] <;> rfl

theorem execLdVK_eq (x : Reg) (s : State) : execLdVK x s = .next (polled x s) := by
  unfold execLdVK polled
  cases leastPressed s.key <;> rfl

/-- Every instruction answers the fault of `faultOf` or the state of `effect`: the checks are in eight instructions, the rest answer their
effect as it stands. -/
theorem exec_eq (i : Instr) (s : State) : exec i s = s.guarded (faultOf i s) (effect i s) := by
  cases i
  case ret => exact execRet_eq s
  case call nnn => exact execCall_eq nnn s
  case drw | ldB | ldStore | ldLoad => exact checkRange_eq s _ _ _
  case skp x => exact execSkp_eq x s
  case sknp x => exact execSknp_eq x s
  case ldVK x => exact execLdVK_eq x s
  all_goals rfl

theorem exec_of_faultOf_none (i : Instr) (s : State) (h : faultOf i s = none) : exec i s = .next (effect i s) := by
  rw [exec_eq, h]; rfl

theorem exec_of_faultOf_some (i : Instr) (s : State) (kind : FaultKind) (info : Nat) (h : faultOf i s = some (kind, info)) :
    exec i s = .next { s with fault := some ⟨kind, info, s.pc⟩ } := by
  rw [exec_eq, h]; rfl

/-- The two cases of an instruction that answers a next state. -/
theorem exec_cases (i : Instr) (s t : State) (h : exec i s = .next t) :
    (∃ kind info, faultOf i s = some (kind, info) ∧ t = { s with fault := some ⟨kind, info, s.pc⟩ }) ∨
    (faultOf i s = none ∧ t = effect i s) := by
  cases hf : faultOf i s with
  | none => exact .inr ⟨rfl, by rw [exec_of_faultOf_none i s hf] at h; cases h; rfl⟩
  | some f =>
    obtain ⟨kind, info⟩ := f
    exact .inl ⟨kind, info, rfl, by rw [exec_of_faultOf_some i s kind info hf] at h; cases h; rfl⟩

/-! Which faults there are (R107). -/

theorem rangeFault_eq_some (a n info : Nat) (kind : FaultKind) :
    rangeFault a n = some (kind, info) ↔ kind = .addressFault ∧ info = max a 0x1000 ∧ n ≠ 0 ∧ 0x1000 < a + n := by
  unfold rangeFault
  split <;> grind

theorem keyFault_eq_some (b : Byte) (info : Nat) (kind : FaultKind) :
    keyFault b = some (kind, info) ↔ kind = .keyIndexFault ∧ info = b.toNat ∧ 0xF < b.toNat := by
  unfold keyFault
  split <;> grind

/-- A recorded fault has the info of its kind (R103). -/
theorem faultOf_sound (i : Instr) (s : State) (kind : FaultKind) (info : Nat) (h : faultOf i s = some (kind, info)) :
    (⟨kind, info, s.pc⟩ : FaultRecord).sound := by
  have range (a n : Nat) (h : rangeFault a n = some (kind, info)) : (⟨kind, info, s.pc⟩ : FaultRecord).sound := by
    obtain ⟨rfl, rfl, -⟩ := (rangeFault_eq_some a n info kind).1 h
    show 0xFFF < max a 0x1000
    omega
  have key (b : Byte) (h : keyFault b = some (kind, info)) : (⟨kind, info, s.pc⟩ : FaultRecord).sound := by
    obtain ⟨rfl, rfl, hb⟩ := (keyFault_eq_some b info kind).1 h
    exact ⟨hb, Nat.le_of_lt_succ b.isLt⟩
  cases i
  case ret | call =>
    simp only [faultOf, Option.ite_none_right_eq_some] at h
    obtain ⟨-, h⟩ := h
    cases h
    rfl
  case drw | ldB | ldStore | ldLoad => exact range _ _ h
  case skp | sknp => exact key _ h
  all_goals cases h

/-! What no instruction that raises no fault changes. -/

/-- FX0A writes VX and pc at most (R99). -/
theorem polled_eq (x : Reg) (s : State) : polled x s = { s with v := (polled x s).v, pc := (polled x s).pc } := by
  unfold polled
  cases leastPressed s.key <;> rfl

theorem effect_fault (i : Instr) (s : State) : (effect i s).fault = s.fault := by
  cases i
  case ldVK x => rw [effect, polled_eq]
  all_goals rfl

theorem effect_ready (i : Instr) (s : State) : (effect i s).ready = s.ready := by
  cases i
  case ldVK x => rw [effect, polled_eq]
  all_goals rfl

/-- FONT is a parameter: the stores write cells alone (R24). -/
theorem effect_font (i : Instr) (s : State) : (effect i s).mem.font = s.mem.font := by
  cases i
  case ldVK x => rw [effect, polled_eq]
  case ldB | ldStore => exact storeBytes_font _ _ _
  all_goals rfl

end Sys2Proof.Machine
end

section
/-! PROOFS. What a step can do, from what an instruction can do, and the invariant of the machine (spec 60_exceptions.md R104 to R107). -/

namespace Sys2Proof.Machine

/-- A step that answers a next state: halted; a fault with the info of its kind, of the fetch or of the instruction, and nothing else; an
undefined word; or an instruction's whole effect, the tick and `Ok` (R55, R57, R105, R106). -/
theorem step_outcome (s t : State) (h : step s = .next t) :
    s.ready = true ∧
    ((∃ r, s.fault = some r ∧ t = s.answer .halted) ∨
     (s.fault = none ∧ ∃ kind info, (⟨kind, info, s.pc⟩ : FaultRecord).sound ∧
        t = { s with fault := some ⟨kind, info, s.pc⟩, report := some (.fault kind info) }) ∨
     (s.fault = none ∧ (∃ why, decode (fetchWord s) = .undefined why) ∧ t = undefinedWord (fetchWord s) s) ∨
     (s.fault = none ∧ s.pc.toNat ≤ 0xFFE ∧
        ∃ i, decode (fetchWord s) = .instr i ∧ faultOf i s = none ∧ t = (effect i s).tick.answer .ok)) := by
  obtain ⟨hready, hcases⟩ := step_cases s t h
  refine ⟨hready, ?_⟩
  rcases hcases with halted | ⟨hf, hpc, rfl⟩ | ⟨hf, -, hd, rfl⟩ | ⟨hf, hpc, i, u, hd, hexec, rfl⟩
  · exact .inl halted
  · have hsound : (⟨.addressFault, max s.pc.toNat 0x1000, s.pc⟩ : FaultRecord).sound := by
      show 0xFFF < max s.pc.toNat 0x1000
      omega
    exact .inr (.inl ⟨hf, _, _, hsound, rfl⟩)
  · exact .inr (.inr (.inl ⟨hf, hd, rfl⟩))
  · rcases exec_cases i s u hexec with ⟨kind, info, hfault, rfl⟩ | ⟨hnone, rfl⟩
    · exact .inr (.inl ⟨hf, kind, info, faultOf_sound i s kind info hfault, rfl⟩)
    · exact .inr (.inr (.inr ⟨hf, hpc, i, hd, hnone, complete_ok _ ((effect_fault i s).trans hf)⟩))

/-! The invariant, part by part. -/

/-- The invariant is about memory, stack and fault register alone. -/
theorem inv_of_eq (s t : State) (hs : Inv s) (hmem : t.mem = s.mem) (hstack : t.stack = s.stack) (hsp : t.sp = s.sp)
    (hfault : t.fault = s.fault) : Inv t := by
  obtain ⟨hwf, hslots, hsound⟩ := hs
  refine ⟨hmem ▸ hwf, ?_, hfault ▸ hsound⟩
  unfold State.slotsFetchable
  rw [hstack, hsp]
  exact hslots

/-- The stores keep the canonical form, and no other instruction writes memory (R43). -/
theorem effect_mem_wf (i : Instr) (s : State) (h : s.mem.wf = true) : (effect i s).mem.wf = true := by
  cases i
  case ldB | ldStore => exact wf_storeBytes _ _ _ h
  case ldVK x => rw [effect, polled_eq]; exact h
  all_goals exact h

/-- 2NNN writes its own address, from which it was fetched, to the slot it occupies (R65, R69). -/
theorem called_slotsFetchable (nnn : Addr12) (s : State) (hpc : s.pc.toNat ≤ 0xFFE) (h : s.slotsFetchable) :
    (called nnn s).slotsFetchable := by
  intro j hj
  show ((s.stack.setIfInBounds s.sp.val s.pc)[j.val]).toNat ≤ 0xFFE
  rw [Vector.getElem_setIfInBounds]
  split
  · exact hpc
  · refine h j ?_
    have : j.val < min (s.sp.val + 1) 16 := hj
    omega

/-- 00EE occupies no slot (R66). -/
theorem returned_slotsFetchable (s : State) (h : s.slotsFetchable) : (returned s).slotsFetchable := by
  intro j hj
  have : j.val < s.sp.val - 1 := hj
  exact h j (by omega)

theorem effect_slotsFetchable (i : Instr) (s : State) (hpc : s.pc.toNat ≤ 0xFFE) (h : s.slotsFetchable) :
    (effect i s).slotsFetchable := by
  cases i
  case call nnn => exact called_slotsFetchable nnn s hpc h
  case ret => exact returned_slotsFetchable s h
  case ldVK x => rw [effect, polled_eq]; exact h
  all_goals exact h

/-- An instruction fetched inside memory keeps the invariant. -/
theorem effect_inv (i : Instr) (s : State) (hpc : s.pc.toNat ≤ 0xFFE) (h : Inv s) : Inv (effect i s) := by
  obtain ⟨hwf, hslots, hsound⟩ := h
  refine ⟨effect_mem_wf i s hwf, effect_slotsFetchable i s hpc hslots, ?_⟩
  rw [effect_fault]
  exact hsound

/-- Every step keeps the invariant, whichever of its cases it takes. -/
theorem step_inv (s t : State) (hs : Inv s) (h : step s = .next t) : Inv t := by
  rcases (step_outcome s t h).2 with ⟨-, -, rfl⟩ | ⟨-, kind, info, hsound, rfl⟩ | ⟨-, -, rfl⟩ | ⟨-, hpc, i, -, -, rfl⟩
  · exact inv_of_eq s _ hs rfl rfl rfl rfl
  · obtain ⟨hwf, hslots, -⟩ := hs
    refine ⟨hwf, hslots, fun r hr => ?_⟩
    cases hr
    exact hsound
  · exact inv_of_eq s _ hs rfl rfl rfl rfl
  · exact inv_of_eq (effect i s) _ (effect_inv i s hpc hs) rfl rfl rfl rfl

end Sys2Proof.Machine

open Sys2Proof.Machine

/-- Settles O18: a fault is recorded with the info of its kind, a call pushes an address it was fetched from, a store keeps the canonical form,
and the rest of a step touches none of the three. -/
theorem everyStepKeepsTheInvariant : Obligations.EveryStepKeepsTheInvariant := by
  unfold Obligations.EveryStepKeepsTheInvariant
  exact step_inv
end

section
/-! PROOFS. The opcode table and the undefined words (spec 30_encoding.md R52, R54). -/

namespace Sys2Proof

theorem decode_of_encode_eq {op : Word} {i : Instr} (h : encode i = op) : decode op = .instr i := h ▸ decode_encode i

namespace Machine

/-! The words of a row, format by format: the mask fixes the class and the function, so the word is the one that the encoder makes of its
fields (R50, R52). -/

theorem encodes_formatA (pattern : Word) (f : Addr12 → Instr) (hf : ∀ nnn, encode (f nnn) = encodeA (classOf pattern) nnn) :
    Encodes 0xF000 pattern (fun op => f (fieldNNN op)) := fun op hop =>
  decode_of_encode_eq (by rw [hf, ← classOf_of_mask_F000 op pattern hop, encodeA_fields])

theorem encodes_formatR (pattern : Word) (f : Reg → Byte → Instr) (hf : ∀ x nn, encode (f x nn) = encodeR (classOf pattern) x nn) :
    Encodes 0xF000 pattern (fun op => f (fieldX op) (fieldNN op)) := fun op hop =>
  decode_of_encode_eq (by rw [hf, ← classOf_of_mask_F000 op pattern hop, encodeR_fields])

theorem encodes_formatD (pattern : Word) (f : Reg → Reg → Rows → Instr)
    (hf : ∀ x y n, encode (f x y n) = encodeP (classOf pattern) x y n) :
    Encodes 0xF000 pattern (fun op => f (fieldX op) (fieldY op) (fieldN op)) := fun op hop =>
  decode_of_encode_eq (by rw [hf, ← classOf_of_mask_F000 op pattern hop, encodeP_fields])

theorem encodes_formatP (pattern : Word) (f : Reg → Reg → Instr)
    (hf : ∀ x y, encode (f x y) = encodeP (classOf pattern) x y (fieldN pattern)) :
    Encodes 0xF00F pattern (fun op => f (fieldX op) (fieldY op)) := fun op hop => by
  obtain ⟨hclass, hn⟩ := fields_of_mask_F00F op pattern hop
  exact decode_of_encode_eq (by rw [hf, ← hclass, ← hn, encodeP_fields])

theorem encodes_formatF (pattern : Word) (f : Reg → Instr) (hf : ∀ x, encode (f x) = encodeF (classOf pattern) x (fieldNN pattern)) :
    Encodes 0xF0FF pattern (fun op => f (fieldX op)) := fun op hop => by
  obtain ⟨hclass, hnn⟩ := fields_of_mask_F0FF op pattern hop
  exact decode_of_encode_eq (by rw [hf, ← hclass, ← hnn]; exact encodeR_fields op)

/-- Format Z: the mask 0xFFFF leaves one word (R52). -/
theorem encodes_formatZ (i : Instr) : Encodes 0xFFFF (encode i) (fun _ => i) := fun op hop => by
  have hword : op &&& 0xFFFF = op := BitVec.and_allOnes
  exact decode_of_encode_eq (hop.symm.trans hword)

/-! The rows of R52, in the table's order. -/

theorem encodes_cls : Encodes 0xFFFF 0x00E0 (fun _ => .cls) := encodes_formatZ .cls
theorem encodes_ret : Encodes 0xFFFF 0x00EE (fun _ => .ret) := encodes_formatZ .ret
theorem encodes_jp : Encodes 0xF000 0x1000 (fun op => .jp (fieldNNN op)) := encodes_formatA _ _ fun _ => rfl
theorem encodes_call : Encodes 0xF000 0x2000 (fun op => .call (fieldNNN op)) := encodes_formatA _ _ fun _ => rfl
theorem encodes_seReg : Encodes 0xF00F 0x5000 (fun op => .seReg (fieldX op) (fieldY op)) := encodes_formatP _ _ fun _ _ => rfl
theorem encodes_orReg : Encodes 0xF00F 0x8001 (fun op => .orReg (fieldX op) (fieldY op)) := encodes_formatP _ _ fun _ _ => rfl
theorem encodes_andReg : Encodes 0xF00F 0x8002 (fun op => .andReg (fieldX op) (fieldY op)) := encodes_formatP _ _ fun _ _ => rfl
theorem encodes_xorReg : Encodes 0xF00F 0x8003 (fun op => .xorReg (fieldX op) (fieldY op)) := encodes_formatP _ _ fun _ _ => rfl
theorem encodes_addReg : Encodes 0xF00F 0x8004 (fun op => .addReg (fieldX op) (fieldY op)) := encodes_formatP _ _ fun _ _ => rfl
theorem encodes_subReg : Encodes 0xF00F 0x8005 (fun op => .subReg (fieldX op) (fieldY op)) := encodes_formatP _ _ fun _ _ => rfl
theorem encodes_shrReg : Encodes 0xF00F 0x8006 (fun op => .shrReg (fieldX op) (fieldY op)) := encodes_formatP _ _ fun _ _ => rfl
theorem encodes_subnReg : Encodes 0xF00F 0x8007 (fun op => .subnReg (fieldX op) (fieldY op)) := encodes_formatP _ _ fun _ _ => rfl
theorem encodes_shlReg : Encodes 0xF00F 0x800E (fun op => .shlReg (fieldX op) (fieldY op)) := encodes_formatP _ _ fun _ _ => rfl
theorem encodes_sneReg : Encodes 0xF00F 0x9000 (fun op => .sneReg (fieldX op) (fieldY op)) := encodes_formatP _ _ fun _ _ => rfl
theorem encodes_jpV0 : Encodes 0xF000 0xB000 (fun op => .jpV0 (fieldNNN op)) := encodes_formatA _ _ fun _ => rfl
theorem encodes_rnd : Encodes 0xF000 0xC000 (fun op => .rnd (fieldX op) (fieldNN op)) := encodes_formatR _ _ fun _ _ => rfl
theorem encodes_drw : Encodes 0xF000 0xD000 (fun op => .drw (fieldX op) (fieldY op) (fieldN op)) := encodes_formatD _ _ fun _ _ _ => rfl
theorem encodes_skp : Encodes 0xF0FF 0xE09E (fun op => .skp (fieldX op)) := encodes_formatF _ _ fun _ => rfl
theorem encodes_sknp : Encodes 0xF0FF 0xE0A1 (fun op => .sknp (fieldX op)) := encodes_formatF _ _ fun _ => rfl
theorem encodes_ldVK : Encodes 0xF0FF 0xF00A (fun op => .ldVK (fieldX op)) := encodes_formatF _ _ fun _ => rfl
theorem encodes_ldDt : Encodes 0xF0FF 0xF015 (fun op => .ldDt (fieldX op)) := encodes_formatF _ _ fun _ => rfl
theorem encodes_ldSt : Encodes 0xF0FF 0xF018 (fun op => .ldSt (fieldX op)) := encodes_formatF _ _ fun _ => rfl
theorem encodes_addI : Encodes 0xF0FF 0xF01E (fun op => .addI (fieldX op)) := encodes_formatF _ _ fun _ => rfl
theorem encodes_ldF : Encodes 0xF0FF 0xF029 (fun op => .ldF (fieldX op)) := encodes_formatF _ _ fun _ => rfl
theorem encodes_ldB : Encodes 0xF0FF 0xF033 (fun op => .ldB (fieldX op)) := encodes_formatF _ _ fun _ => rfl
theorem encodes_ldStore : Encodes 0xF0FF 0xF055 (fun op => .ldStore (fieldX op)) := encodes_formatF _ _ fun _ => rfl
theorem encodes_ldLoad : Encodes 0xF0FF 0xF065 (fun op => .ldLoad (fieldX op)) := encodes_formatF _ _ fun _ => rfl

end Machine

open Machine

/-- A row's words decode to instructions of the row's name (R52). -/
def RowDecodes (row : OpcodeRow) : Prop :=
  ∃ f, Encodes row.mask row.pattern f ∧ ∀ op, (f op).mnemonic = row.mnemonic

theorem rows1_decode : ∀ row ∈ opcodeRows1, RowDecodes row := by
  simp only [opcodeRows1, List.forall_mem_cons]
  exact ⟨⟨_, encodes_cls, fun _ => rfl⟩, ⟨_, encodes_ret, fun _ => rfl⟩, ⟨_, encodes_jp, fun _ => rfl⟩,
    ⟨_, encodes_call, fun _ => rfl⟩, ⟨_, encodes_seImm, fun _ => rfl⟩, ⟨_, encodes_sneImm, fun _ => rfl⟩, ⟨_, encodes_seReg, fun _ => rfl⟩,
    ⟨_, encodes_ldImm, fun _ => rfl⟩, ⟨_, encodes_addImm, fun _ => rfl⟩, List.forall_mem_nil _⟩

theorem rows2_decode : ∀ row ∈ opcodeRows2, RowDecodes row := by
  simp only [opcodeRows2, List.forall_mem_cons]
  exact ⟨⟨_, encodes_ldReg, fun _ => rfl⟩, ⟨_, encodes_orReg, fun _ => rfl⟩, ⟨_, encodes_andReg, fun _ => rfl⟩,
    ⟨_, encodes_xorReg, fun _ => rfl⟩, ⟨_, encodes_addReg, fun _ => rfl⟩, ⟨_, encodes_subReg, fun _ => rfl⟩,
    ⟨_, encodes_shrReg, fun _ => rfl⟩, ⟨_, encodes_subnReg, fun _ => rfl⟩, ⟨_, encodes_shlReg, fun _ => rfl⟩, List.forall_mem_nil _⟩

theorem rows3_decode : ∀ row ∈ opcodeRows3, RowDecodes row := by
  simp only [opcodeRows3, List.forall_mem_cons]
  exact ⟨⟨_, encodes_sneReg, fun _ => rfl⟩, ⟨_, encodes_ldI, fun _ => rfl⟩, ⟨_, encodes_jpV0, fun _ => rfl⟩,
    ⟨_, encodes_rnd, fun _ => rfl⟩, ⟨_, encodes_drw, fun _ => rfl⟩, ⟨_, encodes_skp, fun _ => rfl⟩, ⟨_, encodes_sknp, fun _ => rfl⟩,
    List.forall_mem_nil _⟩

theorem rows4_decode : ∀ row ∈ opcodeRows4, RowDecodes row := by
  simp only [opcodeRows4, List.forall_mem_cons]
  exact ⟨⟨_, encodes_ldVDt, fun _ => rfl⟩, ⟨_, encodes_ldVK, fun _ => rfl⟩, ⟨_, encodes_ldDt, fun _ => rfl⟩,
    ⟨_, encodes_ldSt, fun _ => rfl⟩, ⟨_, encodes_addI, fun _ => rfl⟩, ⟨_, encodes_ldF, fun _ => rfl⟩, ⟨_, encodes_ldB, fun _ => rfl⟩,
    ⟨_, encodes_ldStore, fun _ => rfl⟩, ⟨_, encodes_ldLoad, fun _ => rfl⟩, List.forall_mem_nil _⟩

theorem table_decodes : ∀ row ∈ opcodeTable, RowDecodes row := by
  simp only [opcodeTable, List.forall_mem_append]
  exact ⟨⟨⟨rows1_decode, rows2_decode⟩, rows3_decode⟩, rows4_decode⟩

/-- The instruction's own row selects its word: the 34 laws of `Laws.RowMatch` together (R52). -/
theorem rowMatch (i : Instr) : Laws.RowMatch.Statement i := by
  cases i with
  | cls => exact Laws.RowMatch.cls
  | ret => exact Laws.RowMatch.ret
  | jp nnn => exact Laws.RowMatch.jp nnn
  | call nnn => exact Laws.RowMatch.call nnn
  | seImm x nn => exact Laws.RowMatch.seImm x nn
  | sneImm x nn => exact Laws.RowMatch.sneImm x nn
  | seReg x y => exact Laws.RowMatch.seReg x y
  | ldImm x nn => exact Laws.RowMatch.ldImm x nn
  | addImm x nn => exact Laws.RowMatch.addImm x nn
  | ldReg x y => exact Laws.RowMatch.ldReg x y
  | orReg x y => exact Laws.RowMatch.orReg x y
  | andReg x y => exact Laws.RowMatch.andReg x y
  | xorReg x y => exact Laws.RowMatch.xorReg x y
  | addReg x y => exact Laws.RowMatch.addReg x y
  | subReg x y => exact Laws.RowMatch.subReg x y
  | shrReg x y => exact Laws.RowMatch.shrReg x y
  | subnReg x y => exact Laws.RowMatch.subnReg x y
  | shlReg x y => exact Laws.RowMatch.shlReg x y
  | sneReg x y => exact Laws.RowMatch.sneReg x y
  | ldI nnn => exact Laws.RowMatch.ldI nnn
  | jpV0 nnn => exact Laws.RowMatch.jpV0 nnn
  | rnd x nn => exact Laws.RowMatch.rnd x nn
  | drw x y n => exact Laws.RowMatch.drw x y n
  | skp x => exact Laws.RowMatch.skp x
  | sknp x => exact Laws.RowMatch.sknp x
  | ldVDt x => exact Laws.RowMatch.ldVDt x
  | ldVK x => exact Laws.RowMatch.ldVK x
  | ldDt x => exact Laws.RowMatch.ldDt x
  | ldSt x => exact Laws.RowMatch.ldSt x
  | addI x => exact Laws.RowMatch.addI x
  | ldF x => exact Laws.RowMatch.ldF x
  | ldB x => exact Laws.RowMatch.ldB x
  | ldStore x => exact Laws.RowMatch.ldStore x
  | ldLoad x => exact Laws.RowMatch.ldLoad x

/-- The 34 names of the table are different, so a name has one row (R52). -/
theorem row_eq_of_mnemonic_eq : ∀ row ∈ opcodeTable, ∀ row' ∈ opcodeTable, row.mnemonic = row'.mnemonic → row = row' :=
  List.inj_on_of_nodup_map (by decide : (opcodeTable.map OpcodeRow.mnemonic).Nodup)

/-- A row selects a word exactly when the decoder answers an instruction of its name: one way by the words of the row, the other by the
word that the encoder writes and the row that selects it (R52, R53). -/
theorem row_selects_iff (op : Word) (row : OpcodeRow) (hrow : row ∈ opcodeTable) :
    op &&& row.mask = row.pattern ↔ ∃ i, decode op = .instr i ∧ i.mnemonic = row.mnemonic := by
  constructor
  · intro hop
    obtain ⟨f, hf, hname⟩ := table_decodes row hrow
    exact ⟨f op, hf op hop, hname op⟩
  · rintro ⟨i, hd, hname⟩
    obtain ⟨row', hrow', hname', hsel⟩ := rowMatch i
    obtain rfl := row_eq_of_mnemonic_eq row hrow row' hrow' (hname.symm.trans hname'.symm)
    rwa [encode_of_decode op i hd] at hsel

/-! The undefined words: the fields as numbers, and the functions that no row has (R11, R54). -/

theorem classOf_toNat (op : Word) : (classOf op).toNat = op.toNat / 0x1000 := by
  have := op.isLt
  rw [classOf, BitVec.extractLsb'_toNat, Nat.shiftRight_eq_div_pow]
  omega

theorem fieldN_toNat (op : Word) : (fieldN op).toNat = op.toNat % 0x10 := by
  rw [fieldN, BitVec.extractLsb'_toNat, Nat.shiftRight_zero]

theorem fieldNN_toNat (op : Word) : (fieldNN op).toNat = op.toNat % 0x100 := by
  rw [fieldNN, BitVec.extractLsb'_toNat, Nat.shiftRight_zero]

theorem decodeAlu_undefined_iff (x y : Reg) (function : Nat) (h : function < 0x10) :
    (∃ why, decodeAlu x y function = .undefined why) ↔ function ∈ [0x8, 0x9, 0xA, 0xB, 0xC, 0xD, 0xF] := by
  interval_cases function <;> simp [decodeAlu]

theorem decodeKey_undefined_iff (x : Reg) (function : Nat) :
    (∃ why, decodeKey x function = .undefined why) ↔ function ∉ [0x9E, 0xA1] := by
  unfold decodeKey
  split <;> simp_all

theorem decodeMisc_undefined_iff (x : Reg) (function : Nat) :
    (∃ why, decodeMisc x function = .undefined why) ↔ function ∉ [0x07, 0x0A, 0x15, 0x18, 0x1E, 0x29, 0x33, 0x55, 0x65] := by
  unfold decodeMisc
  split <;> simp_all

theorem fieldN_eq_zero_iff (op : Word) : fieldN op = 0 ↔ op.toNat % 0x10 = 0 := by
  rw [← fieldN_toNat]
  exact (BitVec.toNat_inj (y := 0)).symm

/-- The undefined words of each class, by the two levels of the dispatch (R53, R54). The case `h_k` is class k - 1. -/
theorem decode_undefined_iff (op : Word) : (∃ why, decode op = .undefined why) ↔
    (op.toNat / 0x1000 = 0x0 ∧ op.toNat ≠ 0x00E0 ∧ op.toNat ≠ 0x00EE) ∨
    (op.toNat / 0x1000 = 0x5 ∧ op.toNat % 0x10 ≠ 0) ∨
    (op.toNat / 0x1000 = 0x8 ∧ op.toNat % 0x10 ∈ [0x8, 0x9, 0xA, 0xB, 0xC, 0xD, 0xF]) ∨
    (op.toNat / 0x1000 = 0x9 ∧ op.toNat % 0x10 ≠ 0) ∨
    (op.toNat / 0x1000 = 0xE ∧ op.toNat % 0x100 ∉ [0x9E, 0xA1]) ∨
    (op.toNat / 0x1000 = 0xF ∧ op.toNat % 0x100 ∉ [0x07, 0x0A, 0x15, 0x18, 0x1E, 0x29, 0x33, 0x55, 0x65]) := by
  have alu := decodeAlu_undefined_iff (fieldX op) (fieldY op) (fieldN op).toNat (fieldN op).isLt
  have key := decodeKey_undefined_iff (fieldX op) (fieldNN op).toNat
  have misc := decodeMisc_undefined_iff (fieldX op) (fieldNN op).toNat
  rw [fieldN_toNat] at alu
  rw [fieldNN_toNat] at key misc
  have hword (a : Word) : op = a ↔ op.toNat = a.toNat := BitVec.toNat_inj.symm
  unfold decode
  rw [classOf_toNat]
  split
  case h_1 hc =>
    simp only [hc, hword]
    split
    · next hcls => simp [hcls]
    · split <;> simp_all
  case h_6 hc | h_10 hc => simp only [hc, fieldN_eq_zero_iff]; split <;> simp_all
  case h_9 hc => rw [fieldN_toNat, alu, hc]; simp
  case h_15 hc => rw [fieldNN_toNat, key, hc]; simp
  case h_16 =>
    have hlt := op.isLt
    have hc : op.toNat / 0x1000 = 0xF := by grind
    rw [fieldNN_toNat, misc, hc]; simp
  all_goals
    next hc => rw [hc]; simp

end Sys2Proof

open Sys2Proof Sys2Proof.Machine

/-- Settles O4: the table is counted, `row_selects_iff` is its agreement with the decoder, and two rows that select one word bear the name of
the one instruction it decodes to. -/
theorem decodeAgreesWithOpcodeTable : Obligations.DecodeAgreesWithOpcodeTable := by
  unfold Obligations.DecodeAgreesWithOpcodeTable
  refine ⟨rfl, row_selects_iff, fun op row row' hrow hrow' hsel hsel' => ?_⟩
  obtain ⟨i, hd, hname⟩ := (row_selects_iff op row hrow).1 hsel
  obtain ⟨i', hd', hname'⟩ := (row_selects_iff op row' hrow').1 hsel'
  rw [hd] at hd'
  cases hd'
  exact row_eq_of_mnemonic_eq row hrow row' hrow' (hname.symm.trans hname')

/-- Settles O5, class by class of the decoder's dispatch. -/
theorem undefinedWordsAreThoseOfTheSpec : Obligations.UndefinedWordsAreThoseOfTheSpec := by
  unfold Obligations.UndefinedWordsAreThoseOfTheSpec
  exact decode_undefined_iff

/-- Settles O1: eight closed words, each decoded. -/
theorem specWordsDecode : Obligations.SpecWordsDecode := by
  unfold Obligations.SpecWordsDecode
  exact ⟨by decide, by decide, by decide, by decide, by decide, by decide, by decide, by decide⟩
end

section
/-! PROOFS. The step cycle and the faults (spec 30_encoding.md R49, R55, R57; 60_exceptions.md R103 to R107, R111 to R113). -/

namespace Sys2Proof.Machine

/-! The branches of a step, each as an equation. -/

theorem step_of_not_ready (s : State) (h : s.ready = false) : step s = .refused .notReset := by
  unfold step
  rw [h]

theorem step_of_halted (s : State) (r : FaultRecord) (hready : s.ready = true) (hf : s.fault = some r) :
    step s = .next (s.answer .halted) := by
  unfold step
  rw [hready, hf]

theorem step_of_fetch_fault (s : State) (hr : s.running) (hpc : 0xFFE < s.pc.toNat) :
    step s = completeStep (s.raise .addressFault (max s.pc.toNat 0x1000)) := by
  obtain ⟨hready, hf⟩ := hr
  have hbad : lowestOutOfRange s.pc.toNat 2 = some (max s.pc.toNat 0x1000) := (lowestOutOfRange_some _ _ _).2 ⟨by omega, rfl⟩
  simp only [step, hready, hf, hbad]

theorem step_of_undefined (s : State) (why : Reject) (hr : s.running) (hpc : s.pc.toNat ≤ 0xFFE)
    (hd : decode (fetchWord s) = .undefined why) : step s = .next (undefinedWord (fetchWord s) s) := by
  obtain ⟨hready, hf⟩ := hr
  have hin : lowestOutOfRange s.pc.toNat 2 = none := (lowestOutOfRange_none _ _).2 (.inr (by omega))
  simp only [step, hready, hf, hin, hd]

/-- Every instruction answers a next state: a fault is one (R105, R111). -/
theorem exec_answers (i : Instr) (s : State) : ∃ t, exec i s = .next t := by
  cases h : faultOf i s with
  | none => exact ⟨_, exec_of_faultOf_none i s h⟩
  | some f => exact ⟨_, exec_of_faultOf_some i s f.1 f.2 h⟩

/-- A Step of a block that has been reset answers a next state, in each of its branches (R104). -/
theorem step_answers (s : State) (hready : s.ready = true) : ∃ t, step s = .next t := by
  cases hf : s.fault with
  | some r => exact ⟨_, step_of_halted s r hready hf⟩
  | none =>
    have hr : s.running := ⟨hready, hf⟩
    rcases Nat.lt_or_ge 0xFFE s.pc.toNat with hpc | hpc
    · exact ⟨_, step_of_fetch_fault s hr hpc⟩
    · cases hd : decode (fetchWord s) with
      | undefined why => exact ⟨_, step_of_undefined s why hr hpc hd⟩
      | instr i =>
        obtain ⟨u, hu⟩ := exec_answers i s
        exact ⟨u.complete, by rw [step_of_exec s i hr hpc hd, hu]; rfl⟩

/-- A step leaves the block reset (R121). -/
theorem step_ready (s t : State) (h : step s = .next t) : t.ready = true := by
  obtain ⟨hready, hcases⟩ := step_outcome s t h
  rcases hcases with ⟨-, -, rfl⟩ | ⟨-, kind, info, -, rfl⟩ | ⟨-, -, rfl⟩ | ⟨-, -, i, -, -, rfl⟩
  · exact hready
  · exact hready
  · exact hready
  · exact (effect_ready i s).trans hready

/-! The kinds of fault, each raised by its own instructions (R107). -/

/-- The record that an instruction leaves is the fault it raises. -/
theorem fault_kind_iff (i : Instr) (s t : State) (hs : s.fault = none) (h : exec i s = .next t) (kind : FaultKind) :
    (∃ r, t.fault = some r ∧ r.kind = kind) ↔ ∃ info, faultOf i s = some (kind, info) := by
  rcases exec_cases i s t h with ⟨kind', info, hf, rfl⟩ | ⟨hf, rfl⟩
  · rw [hf]
    simp
  · rw [hf, effect_fault, hs]
    simp

theorem faultOf_stackOverflow (i : Instr) (s : State) :
    (∃ info, faultOf i s = some (.stackOverflow, info)) ↔ (∃ nnn, i = .call nnn) ∧ s.sp.val = 16 := by
  cases i <;> simp [faultOf, rangeFault_eq_some, keyFault_eq_some]

theorem faultOf_stackUnderflow (i : Instr) (s : State) :
    (∃ info, faultOf i s = some (.stackUnderflow, info)) ↔ i = .ret ∧ s.sp.val = 0 := by
  cases i <;> simp [faultOf, rangeFault_eq_some, keyFault_eq_some]

/-- A row count is zero as a number exactly when it is zero (R51). -/
theorem rows_ne_zero_iff (n : Rows) : n.toNat ≠ 0 ↔ n ≠ 0 := not_congr (BitVec.toNat_inj (y := 0))

theorem faultOf_addressFault (i : Instr) (s : State) :
    (∃ info, faultOf i s = some (.addressFault, info)) ↔
      (∃ x y n, i = .drw x y n ∧ n ≠ 0 ∧ 0x1000 < s.i.toNat + n.toNat) ∨
      (∃ x, i = .ldB x ∧ 0xFFF < s.i.toNat + 2) ∨
      (∃ x, (i = .ldStore x ∨ i = .ldLoad x) ∧ 0xFFF < s.i.toNat + x.toNat) := by
  have range (n : Nat) : (∃ info, rangeFault s.indexAddress n = some (.addressFault, info)) ↔ n ≠ 0 ∧ 0x1000 < s.i.toNat + n := by
    simp [rangeFault_eq_some, State.indexAddress]
  cases i
  case drw x y n => simp [faultOf, range, rows_ne_zero_iff]
  case ldB =>
    have bound : 0x1000 < s.i.toNat + 3 ↔ 0xFFF < s.i.toNat + 2 := by omega
    simp [faultOf, range, bound]
  case ldStore x | ldLoad x =>
    have bound : 0x1000 < s.i.toNat + (x.toNat + 1) ↔ 0xFFF < s.i.toNat + x.toNat := by omega
    simp [faultOf, range, bound]
  all_goals simp [faultOf, keyFault_eq_some]

theorem faultOf_keyIndexFault (i : Instr) (s : State) :
    (∃ info, faultOf i s = some (.keyIndexFault, info)) ↔ ∃ x, (i = .skp x ∨ i = .sknp x) ∧ 0xF < (s.reg x).toNat := by
  cases i <;> simp [faultOf, rangeFault_eq_some, keyFault_eq_some]

/-! The delay timer and the sound timer over a step. -/

theorem effect_dt (i : Instr) (s : State) : (effect i s).dt = s.dt ∨ ∃ x, i = .ldDt x := by
  cases i
  case ldDt x => exact .inr ⟨x, rfl⟩
  case ldVK x => rw [effect, polled_eq]; exact .inl rfl
  all_goals exact .inl rfl

theorem effect_st (i : Instr) (s : State) : (effect i s).st = s.st ∨ ∃ x, i = .ldSt x := by
  cases i
  case ldSt x => exact .inr ⟨x, rfl⟩
  case ldVK x => rw [effect, polled_eq]; exact .inl rfl
  all_goals exact .inl rfl

/-- The tick comes after the instruction (R112, R124). -/
theorem dt_tick_answer (s : State) (r : Report) : (s.tick.answer r).dt.toNat = s.dt.toNat - 1 := tick_dt_toNat s

/-- A completed step ends in a tick: of the old timer, or of VX under FX15. -/
theorem step_dt (s t : State) (hr : s.running) (h : step s = .next t) (ht : t.fault = none) :
    (∀ x, decode (fetchWord s) = .instr (.ldDt x) → t.dt.toNat = (s.reg x).toNat - 1) ∧
    ((∀ x, decode (fetchWord s) ≠ .instr (.ldDt x)) → t.dt.toNat = s.dt.toNat - 1) := by
  rcases (step_outcome s t h).2 with ⟨r, hf, -⟩ | ⟨-, kind, info, -, rfl⟩ | ⟨-, ⟨why, hd⟩, rfl⟩ | ⟨-, -, i, hd, -, rfl⟩
  · rw [hr.2] at hf
    cases hf
  · cases ht
  · refine ⟨fun x hx => ?_, fun _ => dt_tick_answer s.advance _⟩
    rw [hd] at hx
    cases hx
  · rw [hd]
    refine ⟨fun x hx => ?_, fun hne => ?_⟩
    · cases hx
      exact dt_tick_answer _ _
    · rcases effect_dt i s with hdt | ⟨x, rfl⟩
      · rw [dt_tick_answer, hdt]
      · exact absurd rfl (hne x)

end Sys2Proof.Machine

open Sys2Proof Sys2Proof.Machine

/-- Settles O6: `step_of_exec` with the two ends of a step. -/
theorem stepRunsTheDecodedInstruction : Obligations.StepRunsTheDecodedInstruction := by
  unfold Obligations.StepRunsTheDecodedInstruction
  intro s i u hr hpc hd hexec
  have hstep : step s = .next u.complete := by rw [step_of_exec s i hr hpc hd, hexec]; rfl
  refine ⟨fun hu => ?_, fun r hu => ?_⟩
  · rw [hstep, complete_ok u hu]
    exact ⟨_, rfl, dt_tick_answer u .ok, rfl⟩
  · rw [hstep, complete_fault u r hu]
    rfl

/-- Settles O7: an instruction answers its effect or the state with its fault recorded. -/
theorem everyInstructionExecutesInEveryState : Obligations.EveryInstructionExecutesInEveryState := by
  unfold Obligations.EveryInstructionExecutesInEveryState
  exact exec_answers

/-- Settles O8: the first branch of a step. -/
theorem stepBeforeResetIsRefused : Obligations.StepBeforeResetIsRefused := by
  unfold Obligations.StepBeforeResetIsRefused
  exact step_of_not_ready

/-- Settles O9: the second branch of a step. -/
theorem haltedStepChangesNothing : Obligations.HaltedStepChangesNothing := by
  unfold Obligations.HaltedStepChangesNothing
  exact step_of_halted

/-- Settles O10: the first bad address of a fetch is 0x1000 from 0xFFF on and pc itself above. -/
theorem fetchOutsideMemoryFaults : Obligations.FetchOutsideMemoryFaults := by
  unfold Obligations.FetchOutsideMemoryFaults
  intro s hr hpc
  have hinfo : max s.pc.toNat 0x1000 = if s.pc.toNat = 0xFFF then 0x1000 else s.pc.toNat := by split <;> omega
  rw [step_of_fetch_fault s hr hpc, hinfo]
  rfl

/-- Settles O11: the branch of a step for an undefined word, field by field. -/
theorem undefinedWordIsACompletedStep : Obligations.UndefinedWordIsACompletedStep := by
  unfold Obligations.UndefinedWordIsACompletedStep
  intro s why hr hpc hd
  exact ⟨_, step_of_undefined s why hr hpc hd, pcPlus_advance s, dt_tick_answer s.advance _, rfl⟩

/-- Settles O12: of the cases of a step, the halted one is not running, two end without a fault, and the faulting one is precise. -/
theorem faultingStepIsPrecise : Obligations.FaultingStepIsPrecise := by
  unfold Obligations.FaultingStepIsPrecise
  intro s t hr h ht
  rcases (step_outcome s t h).2 with ⟨r, hf, -⟩ | ⟨-, kind, info, -, rfl⟩ | ⟨hf, -, rfl⟩ | ⟨hf, -, i, -, -, rfl⟩
  · rw [hr.2] at hf
    cases hf
  · exact ⟨kind, info, rfl⟩
  · exact absurd hf ht
  · exact absurd ((effect_fault i s).trans hf) ht

/-- Settles O13: each case of a step writes its own outcome. -/
theorem everyStepReportsItsOutcome : Obligations.EveryStepReportsItsOutcome := by
  unfold Obligations.EveryStepReportsItsOutcome
  intro s hready
  obtain ⟨t, h⟩ := step_answers s hready
  refine ⟨t, h, step_ready s t h, ?_⟩
  rcases (step_outcome s t h).2 with ⟨r, hf, rfl⟩ | ⟨hf, kind, info, -, rfl⟩ | ⟨hf, -, rfl⟩ | ⟨hf, -, i, -, -, rfl⟩
  · exact .inl ⟨by rw [hf]; exact Option.some_ne_none r, rfl⟩
  · exact .inr (.inr ⟨hf, _, rfl, rfl⟩)
  · exact .inr (.inl ⟨hf, hf, .inr ⟨_, rfl⟩⟩)
  · exact .inr (.inl ⟨hf, (effect_fault i s).trans hf, .inl rfl⟩)

/-- Settles O14: the record is the fault of `faultOf`, whose kinds are told apart instruction by instruction. -/
theorem eachFaultHasItsInstructions : Obligations.EachFaultHasItsInstructions := by
  unfold Obligations.EachFaultHasItsInstructions
  intro i s t hs h
  have record := fault_kind_iff i s t hs h
  exact ⟨(record _).trans (faultOf_stackOverflow i s), (record _).trans (faultOf_stackUnderflow i s),
    (record _).trans (faultOf_addressFault i s), (record _).trans (faultOf_keyIndexFault i s)⟩

/-- Settles O15: every completed step ends in the tick. -/
theorem completedStepTicksTheDelayTimer : Obligations.CompletedStepTicksTheDelayTimer := by
  unfold Obligations.CompletedStepTicksTheDelayTimer
  exact step_dt

/-- Settles O16, by induction on the number of steps. -/
theorem delayTimerCountsCompletedSteps : Obligations.DelayTimerCountsCompletedSteps := by
  unfold Obligations.DelayTimerCountsCompletedSteps
  intro k run hstart hrun
  induction k with
  | zero => exact ⟨hstart, rfl⟩
  | succ k ih =>
    obtain ⟨hk, hdt⟩ := ih fun j hj => hrun j (by omega)
    obtain ⟨hstep, hfault, hnotDt⟩ := hrun k (by omega)
    have hlast := (step_dt _ _ hk hstep hfault).2 hnotDt
    exact ⟨⟨step_ready _ _ hstep, hfault⟩, by omega⟩

/-- Settles O58: FX18 raises no fault, and no other case of a step writes ST. -/
theorem stepKeepsTheSoundTimer : Obligations.StepKeepsTheSoundTimer := by
  unfold Obligations.StepKeepsTheSoundTimer
  intro s t h
  refine ⟨fun x hr hpc hd => ?_, fun hst => ?_⟩
  · have hexec : exec (.ldSt x) s = .next (effect (.ldSt x) s) := exec_of_faultOf_none _ s rfl
    rw [step_of_exec_ok s _ _ hr hpc hd hexec hr.2] at h
    cases h
    rfl
  · rcases (step_outcome s t h).2 with ⟨-, -, rfl⟩ | ⟨-, kind, info, -, rfl⟩ | ⟨-, -, rfl⟩ | ⟨-, -, i, hd, -, rfl⟩
    · exact absurd rfl hst
    · exact absurd rfl hst
    · exact absurd rfl hst
    · obtain ⟨x, rfl⟩ := (effect_st i s).resolve_left hst
      exact ⟨x, hd⟩
end

section
/-! PROOFS. Who writes and who reads each element of the state (spec 10_state.md sections 1 to 7). -/

namespace Sys2Proof.Machine

/-! The writers of each element, by the effects of the 34 instructions; FX0A writes VX and pc at most (`polled_eq`). -/

theorem effect_i (i : Instr) (s : State) : (effect i s).i = s.i ∨ i.mnemonic ∈ ["ANNN", "FX1E", "FX29", "FX55", "FX65"] := by
  cases i
  case ldI | addI | ldF | ldStore | ldLoad => exact .inr (by simp [Instr.mnemonic])
  case ldVK x => rw [effect, polled_eq]; exact .inl rfl
  all_goals exact .inl rfl

theorem effect_mem (i : Instr) (s : State) : (effect i s).mem = s.mem ∨ i.mnemonic ∈ ["FX33", "FX55"] := by
  cases i
  case ldB | ldStore => exact .inr (by simp [Instr.mnemonic])
  case ldVK x => rw [effect, polled_eq]; exact .inl rfl
  all_goals exact .inl rfl

theorem effect_stack (i : Instr) (s : State) : (effect i s).stack = s.stack ∨ i.mnemonic = "2NNN" := by
  cases i
  case call => exact .inr rfl
  case ldVK x => rw [effect, polled_eq]; exact .inl rfl
  all_goals exact .inl rfl

theorem effect_sp (i : Instr) (s : State) : (effect i s).sp = s.sp ∨ i.mnemonic ∈ ["2NNN", "00EE"] := by
  cases i
  case call | ret => exact .inr (by simp [Instr.mnemonic])
  case ldVK x => rw [effect, polled_eq]; exact .inl rfl
  all_goals exact .inl rfl

/-- The display is written by the two display instructions, which set the redraw flag (R27). -/
theorem effect_display (i : Instr) (s : State) :
    ((effect i s).fb = s.fb ∧ (effect i s).redraw = s.redraw) ∨ (i.mnemonic ∈ ["00E0", "DXYN"] ∧ (effect i s).redraw = true) := by
  cases i
  case cls | drw => exact .inr ⟨by simp [Instr.mnemonic], rfl⟩
  case ldVK x => rw [effect, polled_eq]; exact .inl ⟨rfl, rfl⟩
  all_goals exact .inl ⟨rfl, rfl⟩

theorem effect_draws (i : Instr) (s : State) : (effect i s).draws = s.draws ∨ i.mnemonic = "CXNN" := by
  cases i
  case rnd => exact .inr rfl
  case ldVK x => rw [effect, polled_eq]; exact .inl rfl
  all_goals exact .inl rfl

theorem effect_key (i : Instr) (s : State) : (effect i s).key = s.key := by
  cases i
  case ldVK x => rw [effect, polled_eq]
  all_goals rfl

theorem effect_report (i : Instr) (s : State) : (effect i s).report = s.report := by
  cases i
  case ldVK x => rw [effect, polled_eq]
  all_goals rfl

/-! The writers of each register. -/

/-- The register that `fieldX` of an instruction's word names, format by format (R50). -/
theorem fieldX_encodeR (c : BitVec 4) (x : Reg) (nn : Byte) : fieldX (encodeR c x nn) = x := (fields_encodeR c x nn).2.1

theorem fieldX_encodeP (c : BitVec 4) (x y : Reg) (n : BitVec 4) : fieldX (encodeP c x y n) = x := (fields_encodeP c x y n).2.1

theorem fieldX_encodeF (c : BitVec 4) (x : Reg) (f : Byte) : fieldX (encodeF c x f) = x := (fields_encodeF c x f).2.1

theorem reg_setReg_cases (s : State) (x r : Reg) (b : Byte) : (s.setReg x b).reg r = s.reg r ∨ r = x := by
  rw [reg_setReg]
  split
  · next h => exact .inr h
  · exact .inl rfl

theorem reg_setFlag_cases (s : State) (r : Reg) (c : Bool) : (s.setFlag c).reg r = s.reg r ∨ r = 0xF :=
  reg_setReg_cases s vf r (flagByte c)

theorem reg_setRegFlag_cases (s : State) (x r : Reg) (b : Byte) (c : Bool) :
    (s.setRegFlag x b c).reg r = s.reg r ∨ r = x ∨ r = 0xF := by
  rcases reg_setFlag_cases (s.setReg x b) r c with h | h
  · exact (reg_setReg_cases s x r b).imp (h.trans ·) .inl
  · exact .inr (.inr h)

/-- A register after FX65: the byte of its place up to VX, its own value above (R95). -/
theorem reg_loadedFromIndex (x r : Reg) (s : State) :
    (loadedFromIndex x s).reg r = if r.toNat ≤ x.toNat then s.mem.read (s.i.toNat + r.toNat) else s.reg r := by
  show (setRegsFrom s.v 0 _)[r.toNat] = _
  rw [getElem_setRegsFrom]
  simp only [length_readBytes, getElem_readBytes, Nat.zero_le, true_and, Nat.zero_add, Nat.sub_zero, Nat.lt_add_one_iff]
  rfl

theorem reg_polled_cases (x r : Reg) (s : State) : (polled x s).reg r = s.reg r ∨ r = x := by
  unfold polled
  cases leastPressed s.key with
  | none => exact .inl rfl
  | some k => exact reg_setReg_cases s x r _

/-- Who writes register r: `x` is the X of the word (R15, R16). -/
theorem effect_reg (i : Instr) (s : State) (r : Reg) :
    (effect i s).reg r = s.reg r ∨
    (r = fieldX (encode i) ∧ i.mnemonic ∈ ["6XNN", "7XNN", "8XY0", "8XY1", "8XY2", "8XY3", "8XY4", "8XY5", "8XY6", "8XY7", "8XYE", "CXNN",
      "FX07", "FX0A"]) ∨
    (r = 0xF ∧ i.mnemonic ∈ ["8XY4", "8XY5", "8XY6", "8XY7", "8XYE", "DXYN", "FX1E"]) ∨
    (r.toNat ≤ (fieldX (encode i)).toNat ∧ i.mnemonic = "FX65") := by
  cases i
  case ldImm | addImm | rnd =>
    refine (reg_setReg_cases s _ r _).imp id fun h => .inl ⟨?_, by simp [Instr.mnemonic]⟩
    rw [encode, fieldX_encodeR, h]
  case ldReg | orReg | andReg | xorReg =>
    refine (reg_setReg_cases s _ r _).imp id fun h => .inl ⟨?_, by simp [Instr.mnemonic]⟩
    rw [encode, fieldX_encodeP, h]
  case ldVDt =>
    refine (reg_setReg_cases s _ r _).imp id fun h => .inl ⟨?_, by simp [Instr.mnemonic]⟩
    rw [encode, fieldX_encodeF, h]
  case ldVK x =>
    refine (reg_polled_cases x r s).imp id fun h => .inl ⟨?_, by simp [Instr.mnemonic]⟩
    rw [encode, fieldX_encodeF, h]
  case addReg | subReg | shrReg | subnReg | shlReg =>
    refine (reg_setRegFlag_cases s _ r _ _).imp id fun h => h.imp (fun h => ⟨?_, by simp [Instr.mnemonic]⟩)
      fun h => .inl ⟨h, by simp [Instr.mnemonic]⟩
    rw [encode, fieldX_encodeP, h]
  case drw | addI =>
    exact (reg_setFlag_cases _ r _).imp id fun h => .inr (.inl ⟨h, by simp [Instr.mnemonic]⟩)
  case ldLoad x =>
    rw [effect, reg_loadedFromIndex, encode, fieldX_encodeF]
    split
    · next h => exact .inr (.inr (.inr ⟨h, rfl⟩))
    · exact .inl rfl
  all_goals exact .inl rfl

/-! Two executions from states that differ in one element. -/

/-- No check reads the keypad: a key number is checked before the key is (R96). -/
theorem faultOf_key (i : Instr) (s : State) (key : Vector Bool 16) : faultOf i { s with key := key } = faultOf i s := by
  cases i <;> rfl

theorem effect_with_key (i : Instr) (s : State) (key : Vector Bool 16) (h : i.mnemonic ∉ ["EX9E", "EXA1", "FX0A"]) :
    effect i { s with key := key } = { effect i s with key := key } := by
  cases i
  case skp | sknp | ldVK => exact absurd (by simp [Instr.mnemonic]) h
  all_goals rfl

theorem faultOf_st (i : Instr) (s : State) (st : Byte) : faultOf i { s with st := st } = faultOf i s := by
  cases i <;> rfl

/-- FX0A does not read ST (R99). -/
theorem polled_with_st (x : Reg) (s : State) (st : Byte) : polled x { s with st := st } = { polled x s with st := st } := by
  unfold polled
  cases leastPressed s.key <;> rfl

theorem effect_with_st (i : Instr) (s : State) (st : Byte) (h : i.mnemonic ≠ "FX18") :
    effect i { s with st := st } = { effect i s with st := st } := by
  cases i
  case ldSt => exact absurd rfl h
  case ldVK x => exact polled_with_st x s st
  all_goals rfl

theorem eq_ldSt_of_mnemonic (i : Instr) (h : i.mnemonic = "FX18") : ∃ x, i = .ldSt x := by
  cases i
  case ldSt x => exact ⟨x, rfl⟩
  all_goals simp [Instr.mnemonic] at h

end Sys2Proof.Machine

open Sys2Proof Sys2Proof.Machine

/-- Settles O21: a fault writes the fault register alone; the rest is the list of writers of each element. -/
theorem eachStateElementHasItsWriters : Obligations.EachStateElementHasItsWriters := by
  unfold Obligations.EachStateElementHasItsWriters
  intro i s t h
  rcases exec_cases i s t h with ⟨kind, info, -, rfl⟩ | ⟨-, rfl⟩
  · have keepsMemory : KeepsMemory s { s with fault := some ⟨kind, info, s.pc⟩ } := fun _ => rfl
    have keepsDisplay : KeepsDisplay s { s with fault := some ⟨kind, info, s.pc⟩ } := ⟨fun _ _ => rfl, rfl⟩
    exact ⟨absurd rfl, absurd keepsMemory, absurd rfl, absurd rfl, absurd keepsDisplay, absurd rfl, absurd rfl, absurd rfl, rfl, rfl, rfl,
      rfl, absurd rfl⟩
  · refine ⟨(effect_i i s).resolve_left, fun hm => (effect_mem i s).resolve_left fun he => hm fun a => by rw [he],
      (effect_stack i s).resolve_left, (effect_sp i s).resolve_left, fun hd => ?_, fun hr => ?_, fun hdt => ?_, fun hst => ?_,
      effect_key i s, effect_ready i s, effect_font i s, effect_report i s, (effect_draws i s).resolve_left⟩
    · refine ((effect_display i s).resolve_left fun ⟨hfb, hredraw⟩ => hd ⟨fun x y => ?_, hredraw⟩).1
      rw [hfb]
    · exact ((effect_display i s).resolve_left fun ⟨_, hredraw⟩ => hr hredraw).2
    · obtain ⟨x, rfl⟩ := (effect_dt i s).resolve_left hdt
      rfl
    · obtain ⟨x, rfl⟩ := (effect_st i s).resolve_left hst
      rfl

/-- Settles O22: a fault writes no register; the rest is the list of the writers of a register. -/
theorem eachRegisterHasItsWriters : Obligations.EachRegisterHasItsWriters := by
  unfold Obligations.EachRegisterHasItsWriters
  intro i s t r h hr
  rcases exec_cases i s t h with ⟨kind, info, -, rfl⟩ | ⟨-, rfl⟩
  · exact absurd rfl hr
  · exact (effect_reg i s r).resolve_left hr

/-- Settles O23: with another keypad an instruction raises the same fault and has the same effect. -/
theorem otherInstructionsIgnoreTheKeypad : Obligations.OtherInstructionsIgnoreTheKeypad := by
  unfold Obligations.OtherInstructionsIgnoreTheKeypad
  intro i s t key hi h
  have same := faultOf_key i s key
  rcases exec_cases i s t h with ⟨kind, info, hf, rfl⟩ | ⟨hf, rfl⟩
  · rw [exec_of_faultOf_some i _ kind info (same.trans hf)]
  · rw [exec_of_faultOf_none i _ (same.trans hf), effect_with_key i s key hi]

/-- Settles O24: with another sound timer an instruction raises the same fault and has the same effect, FX18 apart, which writes it. -/
theorem noInstructionReadsTheSoundTimer : Obligations.NoInstructionReadsTheSoundTimer := by
  unfold Obligations.NoInstructionReadsTheSoundTimer
  intro i s t st h
  have same := faultOf_st i s st
  by_cases hi : i.mnemonic = "FX18"
  · obtain ⟨x, rfl⟩ := eq_ldSt_of_mnemonic i hi
    rw [exec_of_faultOf_none (.ldSt x) s rfl] at h
    cases h
    exact ⟨s.reg x, exec_of_faultOf_none (.ldSt x) { s with st := st } rfl, fun _ => rfl, absurd hi⟩
  · refine ⟨st, ?_, fun h18 => absurd h18 hi, fun _ => rfl⟩
    rcases exec_cases i s t h with ⟨kind, info, hf, rfl⟩ | ⟨hf, rfl⟩
    · rw [exec_of_faultOf_some i _ kind info (same.trans hf)]
    · rw [exec_of_faultOf_none i _ (same.trans hf), effect_with_st i s st hi]
end

section
/-! PROOFS. Reset, Load and the states a host can bring about (spec 70_reset_and_hazards.md R119, R120; 10_state.md R31, R32). -/

namespace Sys2Proof.Machine

/-- An empty stack and no fault leave the canonical memory as all there is to the invariant. -/
theorem inv_of_wf (s : State) (hmem : s.mem.wf = true) (hsp : s.sp = 0) (hfault : s.fault = none) : Inv s := by
  refine ⟨hmem, fun j hj => ?_, fun r hr => ?_⟩
  · rw [hsp] at hj
    exact absurd hj (Nat.not_lt_zero _)
  · rw [hfault] at hr
    cases hr

theorem inv_reset (s : State) : Inv (reset s) := inv_of_wf _ rfl rfl rfl

/-- What Load answers: the reset machine with the bytes at 0x200, or the reset machine alone (R120). -/
theorem load_of_fits (bytes : List Byte) (s : State) (h : bytes.length ≤ 3584) :
    load bytes s = ({ reset s with mem := (reset s).mem.storeBytes 0x200 bytes }, .ok) := if_pos (decide_eq_true h)

theorem load_of_too_long (bytes : List Byte) (s : State) (h : 3584 < bytes.length) : load bytes s = (reset s, .loadError bytes.length) :=
  if_neg (by rw [imageWellFormed, decide_eq_true_iff]; exact Nat.not_le.2 h)

/-- Both ways, Load leaves a reset machine with a canonical memory of the machine's FONT. -/
theorem load_cases (bytes : List Byte) (s : State) :
    ∃ mem, mem.wf = true ∧ mem.font = s.mem.font ∧ (load bytes s).1 = { reset s with mem := mem } := by
  rcases Nat.lt_or_ge 3584 bytes.length with h | h
  · exact ⟨(reset s).mem, rfl, rfl, by rw [load_of_too_long bytes s h]⟩
  · exact ⟨(reset s).mem.storeBytes 0x200 bytes, wf_storeBytes _ _ _ rfl, storeBytes_font _ _ _, by rw [load_of_fits bytes s h]⟩

theorem load_inv_ready (bytes : List Byte) (s : State) : Inv (load bytes s).1 ∧ (load bytes s).1.ready = true := by
  obtain ⟨mem, hwf, -, hload⟩ := load_cases bytes s
  rw [hload]
  exact ⟨inv_of_wf _ hwf rfl rfl, rfl⟩

/-- Every reachable state meets the invariant and has been reset: each command brings both about or keeps them. -/
theorem reachable_inv_ready : ∀ s, Reachable s → Inv s ∧ s.ready = true := by
  apply reachable_of_kept
  case hreset => exact fun s => ⟨inv_reset s, rfl⟩
  case hload => exact load_inv_ready
  case hstep => exact fun s t ⟨hinv, _⟩ h => ⟨step_inv s t hinv h, step_ready s t h⟩
  case hkeys => exact fun key s ⟨hinv, hready⟩ => ⟨inv_of_eq s _ hinv rfl rfl rfl rfl, hready⟩
  case hredraw => exact fun s ⟨hinv, hready⟩ => ⟨inv_of_eq s _ hinv rfl rfl rfl rfl, hready⟩

/-! FONT is kept by every command (R24). -/

theorem step_font (s t : State) (h : step s = .next t) : t.mem.font = s.mem.font := by
  rcases (step_outcome s t h).2 with ⟨-, -, rfl⟩ | ⟨-, kind, info, -, rfl⟩ | ⟨-, -, rfl⟩ | ⟨-, -, i, -, -, rfl⟩
  · rfl
  · rfl
  · rfl
  · exact effect_font i s

theorem command_font (c : Command) (s t : State) (h : command c s = .next t) : t.mem.font = s.mem.font := by
  cases c with
  | reset => cases h; rfl
  | load bytes =>
    obtain ⟨mem, -, hfont, hload⟩ := load_cases bytes s
    cases h
    rw [hload]
    exact hfont
  | step => exact step_font s t h
  | setKeys key => cases h; rfl
  | clearRedraw => cases h; rfl

/-! The memory that Reset leaves (R24, R119). -/

theorem read_reset (s : State) (a : Nat) : (reset s).mem.read a = (reset s).mem.unlisted a := rfl

theorem read_reset_font (s : State) (a : Fin 80) : (reset s).mem.read a.val = s.mem.font[a] := by
  rw [read_reset, Memory.unlisted, dif_pos a.isLt]
  rfl

theorem read_reset_zero (s : State) (a : Nat) (h : 80 ≤ a) : (reset s).mem.read a = 0 := by
  rw [read_reset, Memory.unlisted, dif_neg (Nat.not_lt.2 h)]

end Sys2Proof.Machine

open Sys2Proof Sys2Proof.Machine

/-- Settles O17: the memory of Reset lists nothing, its stack is empty and its fault register clear. -/
theorem resetMeetsTheInvariant : Obligations.ResetMeetsTheInvariant := by
  unfold Obligations.ResetMeetsTheInvariant
  exact ⟨inv_of_wf _ rfl rfl rfl, inv_reset⟩

/-- Settles O19: the invariant by induction over the commands, FONT command by command. -/
theorem reachableStatesMeetTheInvariant : Obligations.ReachableStatesMeetTheInvariant := by
  unfold Obligations.ReachableStatesMeetTheInvariant
  intro s hs
  obtain ⟨hinv, hready⟩ := reachable_inv_ready s hs
  exact ⟨hinv, hready, fun c t h => command_font c s t h⟩

/-- Settles O20: the invariant bounds the occupied slot by 0xFFE, so the 16-bit sum of R67 does not wrap. -/
theorem returnNeverWrapsPc : Obligations.ReturnNeverWrapsPc := by
  unfold Obligations.ReturnNeverWrapsPc
  intro s hsp hinv
  have hslot : (s.stack[s.sp.val - 1]).toNat ≤ 0xFFE := hinv.2.1 ⟨s.sp.val - 1, by omega⟩ (by show s.sp.val - 1 < _; omega)
  have hpc : (returned s).pc.toNat = (s.stack[s.sp.val - 1]).toNat + 2 := by
    show (s.stack[s.sp.val - 1] + 2).toNat = _
    rw [BitVec.toNat_add]
    exact Nat.mod_eq_of_lt (by show _ + 2 < _; omega)
  exact ⟨_, exec_of_faultOf_none .ret s (if_neg (by omega)), hpc, by rw [effect, hpc]; omega⟩

/-- Settles O25: Reset writes every element, and its memory reads as FONT and zeros. -/
theorem resetPutsEveryElementAtItsValue : Obligations.ResetPutsEveryElementAtItsValue := by
  unfold Obligations.ResetPutsEveryElementAtItsValue
  intro s
  have regs (r : Reg) : (reset s).reg r = 0 := Vector.getElem_replicate _
  have slots (j : Fin 16) : (reset s).stack[j] = 0 := Vector.getElem_replicate _
  have pixels (x : Fin 64) (y : Fin 32) : pixel (reset s).fb x y = false := pixel_blank x y
  have keys (k : Fin 16) : (reset s).key[k] = false := Vector.getElem_replicate _
  exact ⟨regs, rfl, rfl, rfl, slots, rfl, rfl, read_reset_font s, read_reset_zero s, pixels, keys, rfl, rfl, rfl⟩

/-- Settles O26: Load stores a block of bytes that ends at 0xFFF or below in the memory of Reset. -/
theorem loadPutsTheProgramAtItsPlace : Obligations.LoadPutsTheProgramAtItsPlace := by
  unfold Obligations.LoadPutsTheProgramAtItsPlace
  intro bytes s h
  rw [load_of_fits bytes s h]
  exact ⟨rfl, fun k hk => read_storeBytes_inside _ _ _ _ rfl hk (by omega), fun a ha => read_storeBytes_outside _ _ _ _ ha, rfl⟩

/-- Settles O27: the length check fails, and Load answers the machine that it has reset. -/
theorem loadOfTooManyBytesFailsAtACleanReset : Obligations.LoadOfTooManyBytesFailsAtACleanReset := by
  unfold Obligations.LoadOfTooManyBytesFailsAtACleanReset
  exact load_of_too_long
end

section
/-! PROOFS. Control flow (spec 42_control_flow.md): jumps, the call stack, and the skips that compare two registers. -/

namespace Sys2Proof.Machine

/-! A part of the state that an update does not name is kept. -/

theorem keepsRegs_of_eq {s t : State} (h : t.v = s.v) (written : List Reg) : KeepsRegsBut written s t := fun r _ => reg_eq_of_v_eq s t h r

theorem keepsMemory_of_eq {s t : State} (h : t.mem = s.mem) : KeepsMemory s t := fun a => by rw [h]

theorem keepsDisplay_of_eq {s t : State} (hfb : t.fb = s.fb) (hredraw : t.redraw = s.redraw) : KeepsDisplay s t :=
  ⟨fun x y => by rw [hfb], hredraw⟩

/-- A jump changes nothing but pc (R64). -/
theorem changesOnlyPc_jump (s : State) (a : Word) : ChangesOnlyPcAndRegs [] s (s.jump a) :=
  ⟨keepsRegs_of_eq rfl [], rfl, keepsMemory_of_eq rfl, ⟨rfl, rfl⟩, keepsDisplay_of_eq rfl rfl, ⟨rfl, rfl⟩, ⟨rfl, rfl, rfl, rfl, rfl⟩, rfl⟩

/-- NNN + V0 is below 2^16, so nothing is cut (R74). -/
theorem offsetTarget_toNat (nnn : Addr12) (b : Byte) : (offsetTarget nnn b).toNat = nnn.toNat + b.toNat := by
  have hn := nnn.isLt
  have hb := b.isLt
  have hoffset : (b.setWidth 16).toNat = b.toNat := BitVec.toNat_setWidth_of_le (by decide)
  rw [offsetTarget, BitVec.toNat_add, zext16_toNat, hoffset]
  omega

/-! The call stack. -/

theorem exec_call_of_free (nnn : Addr12) (s : State) (h : s.sp.val < 16) : exec (.call nnn) s = .next (called nnn s) :=
  exec_of_faultOf_none (.call nnn) s (if_neg (Nat.ne_of_lt h))

theorem exec_call_of_full (nnn : Addr12) (s : State) (h : s.sp.val = 16) :
    exec (.call nnn) s = .next { s with fault := some ⟨.stackOverflow, s.pc.toNat, s.pc⟩ } :=
  exec_of_faultOf_some (.call nnn) s _ _ (if_pos h)

theorem exec_ret_of_occupied (s : State) (h : 0 < s.sp.val) : exec .ret s = .next (returned s) :=
  exec_of_faultOf_none .ret s (if_neg (Nat.ne_of_gt h))

theorem exec_ret_of_empty (s : State) (h : s.sp.val = 0) :
    exec .ret s = .next { s with fault := some ⟨.stackUnderflow, s.pc.toNat, s.pc⟩ } :=
  exec_of_faultOf_some .ret s _ _ (if_pos h)

theorem called_sp (nnn : Addr12) (s : State) (h : s.sp.val < 16) : (called nnn s).sp.val = s.sp.val + 1 := by
  show min (s.sp.val + 1) 16 = _
  omega

/-- A call writes the slot that sp points at and no other (R65). -/
theorem called_stack (nnn : Addr12) (s : State) (j : Fin 16) :
    (called nnn s).stack[j] = if j.val = s.sp.val then s.pc else s.stack[j] := by
  show (s.stack.setIfInBounds s.sp.val s.pc)[j.val] = _
  simp only [Vector.getElem_setIfInBounds, eq_comm (a := s.sp.val)]
  rfl

/-- The return that follows a call goes past it (R67, R69). -/
theorem returned_called_pc (nnn : Addr12) (s : State) (h : s.sp.val < 16) : (returned (called nnn s)).pc = s.pc + 2 := by
  have hslot : (called nnn s).sp.val - 1 = s.sp.val := by rw [called_sp nnn s h]; rfl
  have hwritten : (called nnn s).stack[s.sp.val] = s.pc := (called_stack nnn s ⟨s.sp.val, h⟩).trans (if_pos rfl)
  show (called nnn s).stack[(called nnn s).sp.val - 1] + 2 = _
  simp only [hslot, hwritten]

theorem returned_called_sp (nnn : Addr12) (s : State) (h : s.sp.val < 16) : (returned (called nnn s)).sp = s.sp := by
  apply Fin.ext
  show (called nnn s).sp.val - 1 = _
  rw [called_sp nnn s h]
  rfl

theorem decode_eq_ret_iff (op : Word) : op = 0x00EE ↔ decode op = .instr .ret :=
  ⟨fun h => decode_of_encode_eq h.symm, fun h => (encode_of_decode op .ret h).symm⟩

end Sys2Proof.Machine

open Sys2Proof Sys2Proof.Machine

/-- Settles O32: the words by their class, the next state as a jump to the zero extension of NNN. -/
theorem jumpGoesToItsTarget : Obligations.JumpGoesToItsTarget := by
  unfold Obligations.JumpGoesToItsTarget
  exact ⟨encodes_jp, fun nnn s => ⟨s.jump (zext16 nnn), rfl, zext16_toNat nnn, changesOnlyPc_jump s _⟩⟩

/-- Settles O33: the words by their class, the next state as a jump to a sum that does not wrap. -/
theorem jumpV0AddsV0ToItsTarget : Obligations.JumpV0AddsV0ToItsTarget := by
  unfold Obligations.JumpV0AddsV0ToItsTarget
  exact ⟨encodes_jpV0, fun nnn s => ⟨s.jump (offsetTarget nnn (s.reg 0)), rfl, offsetTarget_toNat nnn (s.reg 0), changesOnlyPc_jump s _⟩⟩

/-- Settles O34: a free slot is written, a full stack faults. -/
theorem callPushesItsOwnAddress : Obligations.CallPushesItsOwnAddress := by
  unfold Obligations.CallPushesItsOwnAddress
  refine ⟨encodes_call, fun nnn s => ⟨fun h => ?_, exec_call_of_full nnn s⟩⟩
  exact ⟨called nnn s, exec_call_of_free nnn s h, zext16_toNat nnn, called_sp nnn s h, called_stack nnn s, keepsRegs_of_eq rfl [], rfl,
    keepsMemory_of_eq rfl, keepsDisplay_of_eq rfl rfl, ⟨rfl, rfl⟩, ⟨rfl, rfl, rfl, rfl, rfl⟩, rfl⟩

/-- Settles O35: an occupied slot is read and kept, an empty stack faults. -/
theorem returnGoesPastTheCall : Obligations.ReturnGoesPastTheCall := by
  unfold Obligations.ReturnGoesPastTheCall
  refine ⟨decode_eq_ret_iff, fun s => ⟨fun h => ?_, exec_ret_of_empty s⟩⟩
  exact ⟨returned s, exec_ret_of_occupied s h, BitVec.toNat_add _ 2, rfl, rfl, keepsRegs_of_eq rfl [], rfl, keepsMemory_of_eq rfl,
    keepsDisplay_of_eq rfl rfl, ⟨rfl, rfl⟩, ⟨rfl, rfl, rfl, rfl, rfl⟩, rfl⟩

/-- Settles O36: the return reads the slot that the call wrote. -/
theorem returnUndoesCall : Obligations.ReturnUndoesCall := by
  unfold Obligations.ReturnUndoesCall
  intro nnn s h
  have occupied : 0 < (called nnn s).sp.val := by rw [called_sp nnn s h]; exact Nat.succ_pos _
  have pastTheCall : PcPlus 2 s (returned (called nnn s)) := by
    rw [PcPlus, returned_called_pc nnn s h]
    exact BitVec.toNat_add s.pc 2
  have slotsBelow (j : Fin 16) (hj : j.val < s.sp.val) : (returned (called nnn s)).stack[j] = s.stack[j] :=
    (called_stack nnn s j).trans (if_neg (Nat.ne_of_lt hj))
  exact ⟨called nnn s, returned (called nnn s), exec_call_of_free nnn s h, exec_ret_of_occupied _ occupied, pastTheCall,
    returned_called_sp nnn s h, slotsBelow, keepsRegs_of_eq rfl [], keepsMemory_of_eq rfl⟩

/-- Settles O38: the words by class and low nibble, the next states as skips on the comparison of VX with VY. -/
theorem skipsCompareTwoRegisters : Obligations.SkipsCompareTwoRegisters := by
  unfold Obligations.SkipsCompareTwoRegisters
  refine ⟨encodes_seReg, encodes_sneReg, fun op hclass hn => ?_, fun x y s => ⟨?_, ?_⟩⟩
  · refine (decode_undefined_iff op).2 ?_
    rcases hclass with h5 | h9
    · exact .inr (.inl ⟨h5, hn⟩)
    · exact .inr (.inr (.inr (.inl ⟨h9, hn⟩)))
  · exact ⟨s.skipIf (s.reg x == s.reg y), rfl, pcPlus_skipIf_beq s _ _, changesOnlyPc_skipIf s _⟩
  · exact ⟨s.skipIf (s.reg x != s.reg y), rfl, pcPlus_skipIf_bne s _ _, changesOnlyPc_skipIf s _⟩
end

section
/-! PROOFS. Arithmetic and logic (spec 43_alu.md): the logic instructions, the results with a flag, and the random byte. -/

namespace Sys2Proof.Machine

/-! The flags as numbers (R16, R75, R83 to R87). -/

theorem flagByte_decide_toNat (p : Prop) [Decidable p] : (flagByte (decide p)).toNat = if p then 1 else 0 := by
  by_cases h : p <;> simp [flagByte, h]

theorem flagByte_carry_toNat (a b : Byte) : (flagByte (carry a b)).toNat = if a.toNat + b.toNat > 0xFF then 1 else 0 :=
  flagByte_decide_toNat _

theorem flagByte_notBorrow_toNat (a b : Byte) : (flagByte (notBorrow a b)).toNat = if a.toNat ≥ b.toNat then 1 else 0 :=
  flagByte_decide_toNat _

theorem flagByte_subnFlag_toNat (a b : Byte) : (flagByte (subnFlag a b)).toNat = if a.toNat > b.toNat then 0 else 1 := by
  unfold subnFlag
  split <;> rfl

theorem flagByte_bitZero_toNat (a : Byte) : (flagByte (bitZero a)).toNat = a.toNat % 2 := by
  have hbit : bitZero a = decide (a.toNat % 2 = 1) := Nat.testBit_zero a.toNat
  rw [hbit, flagByte_decide_toNat]
  split <;> omega

theorem flagByte_bitSeven_toNat (a : Byte) : (flagByte (bitSeven a)).toNat = a.toNat / 128 := by
  have hbit : bitSeven a = decide (a.toNat / 2 ^ 7 % 2 = 1) := Nat.testBit_eq_decide_div_mod_eq
  have := a.isLt
  rw [hbit, flagByte_decide_toNat]
  split <;> omega

/-! The results as numbers (R75). -/

theorem sub_toNat_int (a b : Byte) : ((a - b).toNat : Int) = (a.toNat - b.toNat : Int) % 256 := by
  have ha := a.isLt
  have hb := b.isLt
  rw [BitVec.toNat_sub]
  omega

theorem shr_toNat (a : Byte) : (a >>> 1).toNat = a.toNat / 2 := by
  rw [BitVec.toNat_ushiftRight, Nat.shiftRight_eq_div_pow]

theorem shl_toNat (a : Byte) : (a <<< 1).toNat = a.toNat * 2 % 256 := by
  rw [BitVec.toNat_shiftLeft, Nat.shiftLeft_eq]

/-! One register and then VF written, then pc + 2: the whole effect of 8XY4 to 8XY7 and 8XYE. -/

theorem reg_setRegFlag_advance (s : State) (x : Reg) (b : Byte) (c : Bool) (hx : x ≠ 0xF) : (s.setRegFlag x b c).advance.reg x = b := by
  rw [reg_advance, reg_setRegFlag, vf_eq, if_neg hx, if_pos rfl]

theorem vf_setRegFlag_advance (s : State) (x : Reg) (b : Byte) (c : Bool) : (s.setRegFlag x b c).advance.reg 0xF = flagByte c := by
  rw [reg_advance, reg_setRegFlag, vf_eq, if_pos rfl]

theorem pcPlus_setRegFlag_advance (s : State) (x : Reg) (b : Byte) (c : Bool) : PcPlus 2 s (s.setRegFlag x b c).advance :=
  pcPlus_advance (s.setRegFlag x b c)

theorem keepsRegsBut_setRegFlag_advance (s : State) (x : Reg) (b : Byte) (c : Bool) :
    KeepsRegsBut [x, 0xF] s (s.setRegFlag x b c).advance := by
  intro r hr
  simp only [List.mem_cons, List.not_mem_nil, or_false, not_or] at hr
  rw [reg_advance, reg_setRegFlag, vf_eq, if_neg hr.2, if_neg hr.1]

theorem changesOnly_setRegFlag_advance (s : State) (x : Reg) (b : Byte) (c : Bool) :
    ChangesOnlyPcAndRegs [x, 0xF] s (s.setRegFlag x b c).advance :=
  ⟨keepsRegsBut_setRegFlag_advance s x b c, rfl, keepsMemory_of_eq rfl, ⟨rfl, rfl⟩, keepsDisplay_of_eq rfl rfl, ⟨rfl, rfl⟩,
    ⟨rfl, rfl, rfl, rfl, rfl⟩, rfl⟩

/-- The state after CXNN (R88). -/
def randomized (x : Reg) (nn : Byte) (s : State) : State :=
  { randomAnd (Config.randomByte s.draws) x nn s with draws := s.draws + 1 }

theorem reg_randomized (x : Reg) (nn : Byte) (s : State) : (randomized x nn s).reg x = Config.randomByte s.draws &&& nn :=
  reg_setReg_same s x _

theorem keepsRegsBut_randomized (x : Reg) (nn : Byte) (s : State) : KeepsRegsBut [x] s (randomized x nn s) :=
  keepsRegsBut_setReg_advance s x _

end Sys2Proof.Machine

open Sys2Proof Sys2Proof.Machine

/-- Settles O41: VX is written with the bitwise result, whose bits are those of the operands. -/
theorem logicActsBitByBit : Obligations.LogicActsBitByBit := by
  unfold Obligations.LogicActsBitByBit
  refine ⟨encodes_orReg, encodes_andReg, encodes_xorReg, fun x y s => ⟨?_, ?_, ?_⟩⟩
  · refine ⟨(s.setReg x (s.reg x ||| s.reg y)).advance, rfl, fun b => ?_, pcPlus_setReg_advance s x _, changesOnly_setReg_advance s x _⟩
    rw [reg_setReg_advance, BitVec.getLsbD_or]
  · refine ⟨(s.setReg x (s.reg x &&& s.reg y)).advance, rfl, fun b => ?_, pcPlus_setReg_advance s x _, changesOnly_setReg_advance s x _⟩
    rw [reg_setReg_advance, BitVec.getLsbD_and]
  · refine ⟨(s.setReg x (s.reg x ^^^ s.reg y)).advance, rfl, fun b => ?_, pcPlus_setReg_advance s x _, changesOnly_setReg_advance s x _⟩
    rw [reg_setReg_advance, BitVec.getLsbD_xor]

/-- Settles O42: VX is written with the sum and then VF with the carry. -/
theorem addSetsCarry : Obligations.AddSetsCarry := by
  unfold Obligations.AddSetsCarry
  refine ⟨encodes_addReg, fun x y s => ⟨(s.setRegFlag x (s.reg x + s.reg y) (carry (s.reg x) (s.reg y))).advance, rfl, fun hx => ?_, ?_,
    pcPlus_setRegFlag_advance s x _ _, changesOnly_setRegFlag_advance s x _ _⟩⟩
  · rw [reg_setRegFlag_advance s x _ _ hx, BitVec.toNat_add]
  · rw [vf_setRegFlag_advance, flagByte_carry_toNat]

/-- Settles O43: VX is written with the difference and then VF with not borrow. -/
theorem subSetsNotBorrow : Obligations.SubSetsNotBorrow := by
  unfold Obligations.SubSetsNotBorrow
  refine ⟨encodes_subReg, fun x y s => ⟨(s.setRegFlag x (s.reg x - s.reg y) (notBorrow (s.reg x) (s.reg y))).advance, rfl, fun hx => ?_, ?_,
    pcPlus_setRegFlag_advance s x _ _, changesOnly_setRegFlag_advance s x _ _⟩⟩
  · rw [reg_setRegFlag_advance s x _ _ hx, sub_toNat_int]
  · rw [vf_setRegFlag_advance, flagByte_notBorrow_toNat]

/-- Settles O44: as O43 with the operands changed over, and the flag in the polarity of R86. -/
theorem reverseSubSetsNotBorrow : Obligations.ReverseSubSetsNotBorrow := by
  unfold Obligations.ReverseSubSetsNotBorrow
  refine ⟨encodes_subnReg, fun x y s => ⟨(s.setRegFlag x (s.reg y - s.reg x) (subnFlag (s.reg x) (s.reg y))).advance, rfl, fun hx => ?_, ?_,
    pcPlus_setRegFlag_advance s x _ _, changesOnly_setRegFlag_advance s x _ _⟩⟩
  · rw [reg_setRegFlag_advance s x _ _ hx, sub_toNat_int]
  · rw [vf_setRegFlag_advance, flagByte_subnFlag_toNat]

/-- Settles O45: VX is written with the shifted byte and then VF with the bit shifted out. -/
theorem shiftsGiveTheBitShiftedOut : Obligations.ShiftsGiveTheBitShiftedOut := by
  unfold Obligations.ShiftsGiveTheBitShiftedOut
  refine ⟨encodes_shrReg, encodes_shlReg, fun x y s => ⟨?_, ?_⟩⟩
  · refine ⟨(s.setRegFlag x (s.reg x >>> 1) (bitZero (s.reg x))).advance, rfl, fun hx => ?_, ?_, pcPlus_setRegFlag_advance s x _ _,
      changesOnly_setRegFlag_advance s x _ _⟩
    · rw [reg_setRegFlag_advance s x _ _ hx, shr_toNat]
    · rw [vf_setRegFlag_advance, flagByte_bitZero_toNat]
  · refine ⟨(s.setRegFlag x (s.reg x <<< 1) (bitSeven (s.reg x))).advance, rfl, fun hx => ?_, ?_, pcPlus_setRegFlag_advance s x _ _,
      changesOnly_setRegFlag_advance s x _ _⟩
    · rw [reg_setRegFlag_advance s x _ _ hx, shl_toNat]
    · rw [vf_setRegFlag_advance, flagByte_bitSeven_toNat]

/-- Settles O46: VX is written with the masked byte, whatever the byte is, and one draw is counted. -/
theorem randomIsMaskedByNN : Obligations.RandomIsMaskedByNN := by
  unfold Obligations.RandomIsMaskedByNN
  refine ⟨encodes_rnd, fun x nn s => ⟨randomized x nn s, rfl, fun b => ?_, fun hnn => ?_, rfl, pcPlus_setReg_advance s x _,
    keepsRegsBut_randomized x nn s, rfl, keepsMemory_of_eq rfl, ⟨rfl, rfl⟩, keepsDisplay_of_eq rfl rfl, ⟨rfl, rfl⟩,
    ⟨rfl, rfl, rfl, rfl, rfl⟩⟩⟩
  · rw [reg_randomized, BitVec.getLsbD_and]
  · rw [reg_randomized, hnn]
    exact BitVec.and_zero
end

section
/-! PROOFS. Keypad, timers and index register (spec 45_keys_timers.md; 44_index_memory.md R91, R92). -/

namespace Sys2Proof.Machine

/-! The keypad. -/

theorem keyDown_of_key (s : State) (b : Byte) (k : Fin 16) (h : b.toNat = k.val) : keyDown s b = s.key[k] := by
  rw [keyDown, (keyIndex_some b k).2 h]
  rfl

theorem exec_skp_of_key (x : Reg) (s : State) (k : Fin 16) (h : (s.reg x).toNat = k.val) : exec (.skp x) s = .next (s.skipIf s.key[k]) := by
  rw [← keyDown_of_key s _ k h]
  exact exec_of_faultOf_none (.skp x) s (if_neg (by omega))

theorem exec_sknp_of_key (x : Reg) (s : State) (k : Fin 16) (h : (s.reg x).toNat = k.val) :
    exec (.sknp x) s = .next (s.skipIf (!s.key[k])) := by
  rw [← keyDown_of_key s _ k h]
  exact exec_of_faultOf_none (.sknp x) s (if_neg (by omega))

theorem pcPlus_skipIf_not (s : State) (c : Bool) : PcPlus (if c = true then 2 else 4) s (s.skipIf (!c)) := by
  cases c
  case false => exact pcPlus_skipIf s true
  case true => exact pcPlus_skipIf s false

theorem polled_of_pressed (x : Reg) (s : State) (k : Fin 16) (h : leastPressed s.key = some k) :
    polled x s = (s.setReg x (BitVec.ofNat 8 k.val)).advance := by
  rw [polled, h]
  rfl

theorem polled_of_none (x : Reg) (s : State) (h : leastPressed s.key = none) : polled x s = s := by
  rw [polled, h]
  rfl

/-- A key number is a byte, so nothing is cut (R99). -/
theorem key_toNat (k : Fin 16) : (BitVec.ofNat 8 k.val).toNat = k.val := by
  rw [BitVec.toNat_ofNat]
  omega

/-! The index register. -/

/-- The glyph of any byte lies below 2^16, so nothing is cut (R92). -/
theorem glyphAddress_toNat (b : Byte) : (glyphAddress b).toNat = b.toNat * 5 := by
  have := b.isLt
  rw [glyphAddress, BitVec.toNat_ofNat]
  show b.toNat * 5 % 2 ^ 16 = _
  omega

theorem indexPlus_toNat (i : Word) (b : Byte) : (indexPlus i b).toNat = (i.toNat + b.toNat) % 0x10000 := by
  have hb : (b.setWidth 16).toNat = b.toNat := BitVec.toNat_setWidth_of_le (by decide)
  rw [indexPlus, BitVec.toNat_add, hb]

/-- The state after FX1E, for the new I (R91). -/
def indexFlagged (s : State) (n : Word) : State := ({ s with i := n }.setFlag (indexAboveLimit n)).advance

theorem vf_indexFlagged_toNat (s : State) (n : Word) : ((indexFlagged s n).reg 0xF).toNat = if n.toNat > 0xFFF then 1 else 0 := by
  rw [indexFlagged, reg_advance, reg_setFlag, vf_eq, if_pos rfl]
  exact flagByte_decide_toNat _

/-- A flag written leaves every register but VF, whatever else the update named (R16). -/
theorem keepsRegsBut_setFlag_advance (s u : State) (c : Bool) (h : u.v = s.v) : KeepsRegsBut [0xF] s (u.setFlag c).advance := by
  intro r hr
  rw [reg_advance, reg_setFlag, vf_eq, if_neg (List.ne_of_not_mem_cons hr)]
  exact reg_eq_of_v_eq s u h r

end Sys2Proof.Machine

open Sys2Proof Sys2Proof.Machine

/-- Settles O48: I is written with the wrapped sum and then VF with its test. -/
theorem addIndexSetsTheLimitFlag : Obligations.AddIndexSetsTheLimitFlag := by
  unfold Obligations.AddIndexSetsTheLimitFlag
  refine ⟨encodes_addI, fun x s => ⟨indexFlagged s (indexPlus s.i (s.reg x)), rfl, indexPlus_toNat s.i (s.reg x), ?_, pcPlus_advance _,
    keepsRegsBut_setFlag_advance s _ _ rfl, keepsMemory_of_eq rfl, ⟨rfl, rfl⟩, keepsDisplay_of_eq rfl rfl, ⟨rfl, rfl⟩,
    ⟨rfl, rfl, rfl, rfl, rfl⟩, rfl⟩⟩
  rw [vf_indexFlagged_toNat, indexPlus_toNat]

/-- Settles O49: the word by its class and function byte, the next state as I written with a product that does not wrap. -/
theorem glyphAddressIsFiveTimesVX : Obligations.GlyphAddressIsFiveTimesVX := by
  unfold Obligations.GlyphAddressIsFiveTimesVX
  exact ⟨encodes_ldF, fun x s => ⟨indexedAt s (glyphAddress (s.reg x)), rfl, glyphAddress_toNat (s.reg x), pcPlus_indexedAt s _,
    indexedAt_frame s _⟩⟩

/-- Settles O54: a key number skips on its key, a greater byte faults. -/
theorem keySkipsReadTheKeyOfVX : Obligations.KeySkipsReadTheKeyOfVX := by
  unfold Obligations.KeySkipsReadTheKeyOfVX
  refine ⟨encodes_skp, encodes_sknp, fun x s => ⟨fun k h => ⟨?_, ?_⟩, fun h => ⟨?_, ?_⟩⟩⟩
  · exact ⟨_, exec_skp_of_key x s k h, pcPlus_skipIf s _, changesOnlyPc_skipIf s _⟩
  · exact ⟨_, exec_sknp_of_key x s k h, pcPlus_skipIf_not s _, changesOnlyPc_skipIf s _⟩
  · exact exec_of_faultOf_some (.skp x) s _ _ (if_pos h)
  · exact exec_of_faultOf_some (.sknp x) s _ _ (if_pos h)

/-- Settles O55: the poll finds the least pressed key and writes VX, or finds none and writes nothing. -/
theorem waitKeyTakesTheLeastPressedKey : Obligations.WaitKeyTakesTheLeastPressedKey := by
  unfold Obligations.WaitKeyTakesTheLeastPressedKey
  refine ⟨encodes_ldVK, fun x s => ⟨fun k hk hleast => ?_, fun hnone => ?_⟩⟩
  · have hexec := execLdVK_eq x s
    rw [polled_of_pressed x s k ((leastPressed_some s.key k).2 ⟨hk, hleast⟩)] at hexec
    refine ⟨_, hexec, ?_, pcPlus_setReg_advance s x _, changesOnly_setReg_advance s x _⟩
    rw [reg_setReg_advance, key_toNat]
  · have hexec := execLdVK_eq x s
    rwa [polled_of_none x s ((leastPressed_none s.key).2 hnone)] at hexec

/-- Settles O57: the words by class and function byte, the next states as one timer written with VX and pc moved on. -/
theorem timersAreSetFromVX : Obligations.TimersAreSetFromVX := by
  unfold Obligations.TimersAreSetFromVX
  refine ⟨encodes_ldDt, encodes_ldSt, fun x s => ⟨?_, ?_⟩⟩
  · exact ⟨({ s with dt := s.reg x } : State).advance, rfl, rfl, rfl, pcPlus_advance _, keepsRegs_of_eq rfl [], rfl, keepsMemory_of_eq rfl,
      ⟨rfl, rfl⟩, keepsDisplay_of_eq rfl rfl, ⟨rfl, rfl, rfl, rfl, rfl⟩, rfl⟩
  · exact ⟨({ s with st := s.reg x } : State).advance, rfl, rfl, rfl, pcPlus_advance _, keepsRegs_of_eq rfl [], rfl, keepsMemory_of_eq rfl,
      ⟨rfl, rfl⟩, keepsDisplay_of_eq rfl rfl, ⟨rfl, rfl, rfl, rfl, rfl⟩, rfl⟩
end

section
/-! PROOFS. Block transfers at I (spec 44_index_memory.md R93 to R95; 20_memory.md R36, R41, R43) and the host's word at pc. -/

namespace Sys2Proof.Machine

/-! The range check of the bytes at I (R36). -/

theorem exec_of_inRange (i : Instr) (s : State) (n : Nat) (hf : faultOf i s = rangeFault s.indexAddress n)
    (h : n = 0 ∨ s.i.toNat + n ≤ 0x1000) : exec i s = .next (effect i s) :=
  exec_of_faultOf_none i s (hf.trans (if_neg (by rw [State.indexAddress]; omega)))

theorem exec_of_outOfRange (i : Instr) (s : State) (n : Nat) (hf : faultOf i s = rangeFault s.indexAddress n) (hn : n ≠ 0)
    (h : 0x1000 < s.i.toNat + n) : exec i s = .next { s with fault := some ⟨.addressFault, max s.i.toNat 0x1000, s.pc⟩ } :=
  exec_of_faultOf_some i s _ _ (hf.trans (if_pos ⟨hn, h⟩))

/-! Bytes stored at I. -/

theorem read_storedAtIndex (s : State) (bytes : List Byte) (i : Word) (k : Nat) (hm : s.mem.wf = true) (hk : k < bytes.length)
    (h : s.i.toNat + bytes.length ≤ 0x1000) : (storedAtIndex s bytes i).mem.read (s.indexAddress + k) = bytes[k] :=
  read_storeBytes_inside s.mem s.indexAddress k bytes hm hk h

theorem keepsMemoryOutside_storedAtIndex (s : State) (bytes : List Byte) (i : Word) (n : Nat) (hn : bytes.length = n) :
    KeepsMemoryOutside s.indexAddress n s (storedAtIndex s bytes i) := fun b hb =>
  read_storeBytes_outside s.mem s.indexAddress b bytes (by rwa [hn])

theorem wf_storedAtIndex (s : State) (bytes : List Byte) (i : Word) (h : s.mem.wf = true) : (storedAtIndex s bytes i).mem.wf = true :=
  wf_storeBytes s.mem s.indexAddress bytes h

theorem pcPlus_storedAtIndex (s : State) (bytes : List Byte) (i : Word) : PcPlus 2 s (storedAtIndex s bytes i) := pcPlus_advance _

/-- What the stores leave unchanged: every element but memory, I and pc. -/
theorem storedAtIndex_frame (s : State) (bytes : List Byte) (i : Word) :
    KeepsRegsBut [] s (storedAtIndex s bytes i) ∧ KeepsStack s (storedAtIndex s bytes i) ∧ KeepsDisplay s (storedAtIndex s bytes i) ∧
    KeepsTimers s (storedAtIndex s bytes i) ∧ KeepsControl s (storedAtIndex s bytes i) ∧ KeepsDraws s (storedAtIndex s bytes i) :=
  ⟨keepsRegs_of_eq rfl [], ⟨rfl, rfl⟩, keepsDisplay_of_eq rfl rfl, ⟨rfl, rfl⟩, ⟨rfl, rfl, rfl, storeBytes_font _ _ _, rfl⟩, rfl⟩

/-- A stored register reads back from its place (R94). -/
theorem read_storedRegs (x r : Reg) (s : State) (i : Word) (hm : s.mem.wf = true) (h : s.i.toNat + x.toNat ≤ 0xFFF) (hr : r.toNat ≤ x.toNat) :
    (storedAtIndex s (s.regsUpTo x) i).mem.read (s.indexAddress + r.toNat) = s.reg r := by
  have hlen := length_regsUpTo s x
  rw [read_storedAtIndex s _ i r.toNat hm (by omega) (by omega), getElem_regsUpTo]

/-- I does not wrap while its block ends inside memory (R89). -/
theorem indexPast_toNat (i : Word) (x : Reg) (h : i.toNat + x.toNat ≤ 0xFFF) : (indexPast i x).toNat = i.toNat + x.toNat + 1 := by
  rw [indexPast, BitVec.toNat_add, BitVec.toNat_ofNat]
  omega

/-! The decimal digits of a byte are bytes (R93). -/

theorem digit_toNat (d : Nat) (h : d < 256) : (BitVec.ofNat 8 d).toNat = d := by
  rw [BitVec.toNat_ofNat]
  exact Nat.mod_eq_of_lt h

theorem read_bcd (s : State) (b : Byte) (i : Word) (hm : s.mem.wf = true) (h : s.i.toNat + 2 ≤ 0xFFF) :
    ((storedAtIndex s (bcdDigits b) i).mem.read s.indexAddress).toNat = b.toNat / 100 ∧
    ((storedAtIndex s (bcdDigits b) i).mem.read (s.indexAddress + 1)).toNat = b.toNat / 10 % 10 ∧
    ((storedAtIndex s (bcdDigits b) i).mem.read (s.indexAddress + 2)).toNat = b.toNat % 10 := by
  have hb := b.isLt
  have digit (k : Nat) (hk : k < 3) := read_storedAtIndex s (bcdDigits b) i k hm hk (by show _ + 3 ≤ _; omega)
  refine ⟨?_, ?_, ?_⟩
  · exact (congrArg BitVec.toNat (digit 0 (by decide))).trans (digit_toNat _ (by omega))
  · exact (congrArg BitVec.toNat (digit 1 (by decide))).trans (digit_toNat _ (by omega))
  · exact (congrArg BitVec.toNat (digit 2 (by decide))).trans (digit_toNat _ (by omega))

/-! Registers loaded from I. -/

theorem reg_loadedFromIndex_le (x r : Reg) (s : State) (h : r.toNat ≤ x.toNat) :
    (loadedFromIndex x s).reg r = s.mem.read (s.i.toNat + r.toNat) := by
  rw [reg_loadedFromIndex, if_pos h]

theorem reg_loadedFromIndex_gt (x r : Reg) (s : State) (h : x.toNat < r.toNat) : (loadedFromIndex x s).reg r = s.reg r := by
  rw [reg_loadedFromIndex, if_neg (Nat.not_le.2 h)]

/-! The host's word (log 12). -/

theorem tableWord_toNat (w : Nat) (h : w < 0x10000) : (tableWord 16 w).toNat = w := by
  rw [tableWord, BitVec.toNat_ofNat, Nat.mod_mod]
  exact Nat.mod_eq_of_lt h

/-- Two bytes stored at pc are the word that is fetched from there (R39, R49). -/
theorem fetchWord_of_stored (s t : State) (op : Word) (hm : s.mem.wf = true) (hpc : t.pc.toNat + 1 < 0x1000)
    (ht : t.mem = s.mem.storeBytes t.pc.toNat [highByte op, lowByte op]) : fetchWord t = op := by
  have byte (k : Nat) (hk : k < 2) : t.mem.read (t.pc.toNat + k) = [highByte op, lowByte op][k] := by
    rw [ht]
    exact read_storeBytes_inside s.mem t.pc.toNat k [highByte op, lowByte op] hm hk (by show _ + 2 ≤ _; omega)
  have high : t.mem.read t.pc.toNat = highByte op := byte 0 (by decide)
  have low : t.mem.read (t.pc.toNat + 1) = lowByte op := byte 1 (by decide)
  rw [fetchWord, high, low, wordOfBytes_highByte_lowByte]

/-- The pc of `withFetchWord`, where both bytes of a fetch are inside memory (R49). -/
theorem withFetchWord_pc (s : State) (w : Nat) : (s.withFetchWord 16 w).pc = if s.pc.toNat + 1 < 0x1000 then s.pc else 0x200 := rfl

theorem withFetchWord_pc_toNat (s : State) (w : Nat) : (s.withFetchWord 16 w).pc.toNat ≤ 0xFFE := by
  rw [withFetchWord_pc]
  split
  · omega
  · decide

end Sys2Proof.Machine

open Sys2Proof Sys2Proof.Machine

/-- Settles O50: three digits are stored behind the range check of three bytes. -/
theorem bcdStoresTheThreeDigits : Obligations.BcdStoresTheThreeDigits := by
  unfold Obligations.BcdStoresTheThreeDigits
  refine ⟨encodes_ldB, fun x s hm => ⟨fun h => ?_, fun h => ?_⟩⟩
  · have hexec := exec_of_inRange (.ldB x) s 3 rfl (.inr (by omega))
    obtain ⟨hundreds, tens, ones⟩ := read_bcd s (s.reg x) s.i hm h
    exact ⟨_, hexec, hundreds, tens, ones, keepsMemoryOutside_storedAtIndex s _ s.i 3 rfl, wf_storedAtIndex s _ s.i hm, rfl,
      pcPlus_storedAtIndex s _ _, storedAtIndex_frame s _ _⟩
  · exact exec_of_outOfRange (.ldB x) s 3 rfl (by decide) (by omega)

/-- Settles O51: X + 1 registers are stored behind the range check of as many bytes. -/
theorem storeRegistersAtIndex : Obligations.StoreRegistersAtIndex := by
  unfold Obligations.StoreRegistersAtIndex
  refine ⟨encodes_ldStore, fun x s hm => ⟨fun h => ?_, fun h => ?_⟩⟩
  · have hexec := exec_of_inRange (.ldStore x) s (x.toNat + 1) rfl (.inr (by omega))
    exact ⟨_, hexec, fun r hr => read_storedRegs x r s _ hm h hr, keepsMemoryOutside_storedAtIndex s _ _ _ (length_regsUpTo s x),
      wf_storedAtIndex s _ _ hm, indexPast_toNat s.i x h, pcPlus_storedAtIndex s _ _, storedAtIndex_frame s _ _⟩
  · exact exec_of_outOfRange (.ldStore x) s (x.toNat + 1) rfl (by omega) (by omega)

/-- Settles O52: X + 1 registers are loaded behind the range check of as many bytes. -/
theorem loadRegistersFromIndex : Obligations.LoadRegistersFromIndex := by
  unfold Obligations.LoadRegistersFromIndex
  refine ⟨encodes_ldLoad, fun x s => ⟨fun h => ?_, fun h => ?_⟩⟩
  · have hexec := exec_of_inRange (.ldLoad x) s (x.toNat + 1) rfl (.inr (by omega))
    exact ⟨_, hexec, fun r hr => reg_loadedFromIndex_le x r s hr, fun r hr => reg_loadedFromIndex_gt x r s hr, indexPast_toNat s.i x h,
      pcPlus_advance _, keepsMemory_of_eq rfl, ⟨rfl, rfl⟩, keepsDisplay_of_eq rfl rfl, ⟨rfl, rfl⟩, ⟨rfl, rfl, rfl, rfl, rfl⟩, rfl⟩
  · exact exec_of_outOfRange (.ldLoad x) s (x.toNat + 1) rfl (by omega) (by omega)

/-- Settles O53: the load reads the places that the store wrote. -/
theorem loadUndoesStore : Obligations.LoadUndoesStore := by
  unfold Obligations.LoadUndoesStore
  intro x s v hm h
  have hstore := exec_of_inRange (.ldStore x) s (x.toNat + 1) rfl (.inr (by omega))
  have hload := exec_of_inRange (.ldLoad x) { effect (.ldStore x) s with i := s.i, v := v } (x.toNat + 1) rfl
    (.inr (by show s.i.toNat + _ ≤ _; omega))
  refine ⟨_, _, hstore, hload, fun r hr => ?_, rfl⟩
  exact (reg_loadedFromIndex_le x r _ hr).trans (read_storedRegs x r s (indexPast s.i x) hm h hr)

/-- Settles O59: the word's bytes are stored at a pc whose two bytes are inside memory. -/
theorem placedWordIsFetched : Obligations.PlacedWordIsFetched := by
  unfold Obligations.PlacedWordIsFetched
  intro s w hm hw
  have hpc := withFetchWord_pc_toNat s w
  refine ⟨⟨rfl, rfl⟩, hpc, ?_, fun hr hin => ?_⟩
  · rw [fetchWord_of_stored s _ (tableWord 16 w) hm (by omega) rfl, tableWord_toNat w hw]
  · obtain ⟨hready, hfault⟩ := hr
    have samePc : (s.withFetchWord 16 w).pc = s.pc := by rw [withFetchWord_pc, if_pos (by omega)]
    ext1
    case pc => exact samePc
    case fault => exact hfault.symm
    case ready => exact hready.symm
    all_goals rfl
end

section
/-! PROOFS. The sprite-blit unit (spec 41_display.md R59 to R63): what the rows of a sprite flip and meet, and DXYN. -/

namespace Sys2Proof.Machine

/-! Rows drawn one after the other. They lie at different rows of the framebuffer, so each meets the pixels as they were before the first. -/

/-- The rows after row r of a sprite lie at other rows of the framebuffer (R60). -/
theorem pixelRow_later_ne (y0 : Byte) (r k n : Nat) (hn : r + (n + 1) ≤ 16) (hk : k < n) : pixelRow y0 (r + (k + 1)) ≠ pixelRow y0 r :=
  fun h => by
    have := pixelRow_injective y0 (r + (k + 1)) r (by omega) (by omega) h
    omega

/-- One row byte leaves the later rows alone. -/
theorem pixel_blitRow_later (x0 y0 row : Byte) (r k n : Nat) (b : Blit) (px : Fin 64) (hn : r + (n + 1) ≤ 16) (hk : k < n) :
    pixel (blitRow x0 (pixelRow y0 r) b row).fb px (pixelRow y0 (r + (k + 1))) = pixel b.fb px (pixelRow y0 (r + (k + 1))) := by
  rw [pixel_blitRow]
  simp [pixelRow_later_ne y0 r k n hn hk]

/-- A framebuffer row that no row byte is drawn at keeps its pixels. -/
theorem pixel_blitRows_other (x0 y0 : Byte) (rows : List Byte) (r : Nat) (b : Blit) (px : Fin 64) (py : Fin 32)
    (h : ∀ k < rows.length, py ≠ pixelRow y0 (r + k)) : pixel (blitRows x0 y0 r b rows).fb px py = pixel b.fb px py := by
  induction rows generalizing r b with
  | nil => rfl
  | cons row rows ih =>
    have hfirst : py ≠ pixelRow y0 r := h 0 (Nat.succ_pos _)
    have hrest (k : Nat) (hk : k < rows.length) : py ≠ pixelRow y0 (r + 1 + k) := by
      rw [Nat.add_assoc, Nat.add_comm 1 k]
      exact h (k + 1) (Nat.succ_lt_succ hk)
    rw [blitRows, ih _ _ hrest, pixel_blitRow]
    simp [hfirst]

/-- Row k of the sprite flips the targets of its set bits (R61). -/
theorem pixel_blitRows_row (x0 y0 : Byte) (rows : List Byte) (r : Nat) (b : Blit) (px : Fin 64) (hlen : r + rows.length ≤ 16) (k : Nat)
    (hk : k < rows.length) :
    pixel (blitRows x0 y0 r b rows).fb px (pixelRow y0 (r + k)) =
      (pixel b.fb px (pixelRow y0 (r + k)) ^^ decide (px ∈ spriteColumns x0 rows[k])) := by
  induction rows generalizing r b k with
  | nil => exact absurd hk (Nat.not_lt_zero k)
  | cons row rows ih =>
    rw [List.length_cons] at hlen hk
    rw [blitRows]
    cases k with
    | zero =>
      have hrest (k : Nat) (hk : k < rows.length) : pixelRow y0 (r + 0) ≠ pixelRow y0 (r + 1 + k) := by
        rw [Nat.add_assoc, Nat.add_comm 1 k]
        exact (pixelRow_later_ne y0 r k rows.length hlen hk).symm
      rw [pixel_blitRows_other _ _ _ _ _ _ _ hrest, pixel_blitRow]
      simp
    | succ k =>
      have hnext := ih (r + 1) (blitRow x0 (pixelRow y0 r) b row) (by omega) k (by omega)
      rwa [Nat.add_assoc, Nat.add_comm 1 k, pixel_blitRow_later x0 y0 row r k rows.length b px hlen (by omega)] at hnext

/-- The sprite meets a collision when a set bit of some row meets a pixel that was 1 before the first row (R61, R63). -/
theorem hit_blitRows (x0 y0 : Byte) (rows : List Byte) (r : Nat) (b : Blit) (hlen : r + rows.length ≤ 16) :
    (blitRows x0 y0 r b rows).hit = true ↔ b.hit = true ∨
      ∃ (k : Nat) (hk : k < rows.length), ∃ px ∈ spriteColumns x0 rows[k], pixel b.fb px (pixelRow y0 (r + k)) = true := by
  induction rows generalizing r b with
  | nil => simp [blitRows]
  | cons row rows ih =>
    rw [List.length_cons] at hlen
    have later (k : Nat) (hk : k < rows.length) (px : Fin 64) := pixel_blitRow_later x0 y0 row r k rows.length b px hlen hk
    rw [blitRows, ih _ _ (by omega), hit_blitRow]
    simp only [Nat.add_assoc, Nat.add_comm 1]
    constructor
    · rintro ((hb | ⟨px, hpx, hp⟩) | ⟨k, hk, px, hpx, hp⟩)
      · exact .inl hb
      · exact .inr ⟨0, Nat.succ_pos _, px, hpx, hp⟩
      · exact .inr ⟨k + 1, Nat.succ_lt_succ hk, px, hpx, (later k hk px).symm.trans hp⟩
    · rintro (hb | ⟨_ | k, hk, px, hpx, hp⟩)
      · exact .inl (.inl hb)
      · exact .inl (.inr ⟨px, hpx, hp⟩)
      · have hk' : k < rows.length := Nat.lt_of_succ_lt_succ hk
        exact .inr ⟨k, hk', px, hpx, (later k hk' px).trans hp⟩

/-! DXYN whose reads are in range. -/

/-- The pixel that sprite bit (r, c) targets (R60). -/
def IsTarget (x y : Reg) (s : State) (r c : Nat) (px : Fin 64) (py : Fin 32) : Prop :=
  px.val = ((s.reg x).toNat + c) % 64 ∧ py.val = ((s.reg y).toNat + r) % 32

/-- A pixel of a column the row targets belongs to the bit of that column alone (R59, R60). -/
theorem mem_spriteColumns_of_column (x0 row : Byte) (px : Fin 64) (c : Nat) (hc : c < 8) (hpx : px.val = (x0.toNat + c) % 64) :
    px ∈ spriteColumns x0 row ↔ row.getLsbD (7 - c) = true := by
  rw [mem_spriteColumns]
  constructor
  · rintro ⟨d, hd, hbit, hpx'⟩
    obtain rfl : c = d := pixelColumn_injective x0 c d hc hd (Fin.ext (hpx.symm.trans hpx'))
    exact hbit
  · exact fun hbit => ⟨c, hc, hbit, hpx⟩

theorem pixel_drawn_target (x y : Reg) (n : Rows) (s : State) (r c : Nat) (px : Fin 64) (py : Fin 32) (hr : r < n.toNat) (hc : c < 8)
    (h : IsTarget x y s r c px py) :
    pixel (drawn x y n s).fb px py = (pixel s.fb px py ^^ (s.mem.read (s.i.toNat + r)).getLsbD (7 - c)) := by
  obtain ⟨hpx, hpy⟩ := h
  have hlen := length_readBytes s.mem s.indexAddress n.toNat
  have hn := n.isLt
  obtain rfl : py = pixelRow (s.reg y) (0 + r) := by rw [Nat.zero_add]; exact Fin.ext hpy
  have hrow := pixel_blitRows_row (s.reg x) (s.reg y) (s.mem.readBytes s.indexAddress n.toNat) 0 ⟨s.fb, false⟩ px (by omega) r (by omega)
  rw [getElem_readBytes] at hrow
  simp only [mem_spriteColumns_of_column _ _ px c hc hpx, Bool.decide_eq_true] at hrow
  exact hrow

theorem pixel_drawn_other (x y : Reg) (n : Rows) (s : State) (px : Fin 64) (py : Fin 32)
    (h : ∀ r c : Nat, r < n.toNat → c < 8 → ¬ IsTarget x y s r c px py) : pixel (drawn x y n s).fb px py = pixel s.fb px py := by
  have hn := n.isLt
  have hlen := length_readBytes s.mem s.indexAddress n.toNat
  by_cases hpy : ∃ r, r < n.toNat ∧ py = pixelRow (s.reg y) (0 + r)
  · obtain ⟨r, hr, rfl⟩ := hpy
    have hcol : px ∉ spriteColumns (s.reg x) (s.mem.readBytes s.indexAddress n.toNat)[r] := by
      rw [mem_spriteColumns]
      rintro ⟨c, hc, -, hpx⟩
      exact h r c hr hc ⟨hpx, by rw [Nat.zero_add]; rfl⟩
    have hrow := pixel_blitRows_row (s.reg x) (s.reg y) (s.mem.readBytes s.indexAddress n.toNat) 0 ⟨s.fb, false⟩ px (by omega) r (by omega)
    rwa [decide_eq_false hcol, Bool.xor_false] at hrow
  · exact pixel_blitRows_other _ _ _ _ _ _ _ fun k hk he => hpy ⟨k, by omega, he⟩

/-- DXYN meets a collision when a set bit meets a pixel that was 1 (R61, R63). -/
theorem hit_drawSprite (x y : Reg) (n : Rows) (s : State) :
    (drawSprite x y n s).hit = true ↔ ∃ (r c : Nat) (px : Fin 64) (py : Fin 32), r < n.toNat ∧ c < 8 ∧ IsTarget x y s r c px py ∧
      (s.mem.read (s.i.toNat + r)).getLsbD (7 - c) = true ∧ pixel s.fb px py = true := by
  have hn := n.isLt
  have hlen := length_readBytes s.mem s.indexAddress n.toNat
  rw [drawSprite, hit_blitRows _ _ _ _ _ (by omega)]
  constructor
  · rintro (hb | ⟨r, hr, px, hcol, hp⟩)
    · cases hb
    · rw [getElem_readBytes, mem_spriteColumns] at hcol
      obtain ⟨c, hc, hbit, hpx⟩ := hcol
      exact ⟨r, c, px, _, by omega, hc, ⟨hpx, by rw [Nat.zero_add]; rfl⟩, hbit, hp⟩
  · rintro ⟨r, c, px, py, hr, hc, ⟨hpx, hpy⟩, hbit, hp⟩
    obtain rfl : py = pixelRow (s.reg y) (0 + r) := by rw [Nat.zero_add]; exact Fin.ext hpy
    refine .inr ⟨r, by omega, px, ?_, hp⟩
    rw [getElem_readBytes, mem_spriteColumns]
    exact ⟨c, hc, hbit, hpx⟩

theorem vf_drawn (x y : Reg) (n : Rows) (s : State) : (drawn x y n s).reg 0xF = flagByte (drawSprite x y n s).hit := by
  rw [drawn, reg_advance, reg_setFlag, vf_eq, if_pos rfl]

theorem vf_drawn_eq_zero_iff (x y : Reg) (n : Rows) (s : State) : (drawn x y n s).reg 0xF = 0 ↔ (drawSprite x y n s).hit = false := by
  rw [vf_drawn]
  cases (drawSprite x y n s).hit <;> decide

theorem vf_drawn_of_hit (x y : Reg) (n : Rows) (s : State) (h : (drawSprite x y n s).hit = true) : (drawn x y n s).reg 0xF = 1 := by
  rw [vf_drawn, h]
  rfl

theorem keepsRegsBut_drawn (x y : Reg) (n : Rows) (s : State) : KeepsRegsBut [0xF] s (drawn x y n s) :=
  keepsRegsBut_setFlag_advance s _ _ rfl

theorem exec_drw_of_inRange (x y : Reg) (n : Rows) (s : State) (h : n = 0 ∨ s.i.toNat + n.toNat ≤ 0x1000) :
    exec (.drw x y n) s = .next (drawn x y n s) :=
  exec_of_inRange (.drw x y n) s n.toNat rfl (h.imp (fun h0 => by rw [h0]; rfl) id)

/-- Every sprite bit has a target (R60). -/
theorem exists_target (x y : Reg) (s : State) (r c : Nat) : ∃ px py, IsTarget x y s r c px py :=
  ⟨pixelColumn (s.reg x) c, pixelRow (s.reg y) r, rfl, rfl⟩

/-- A draw moves no target and no sprite byte when VX and VY are not VF. -/
theorem isTarget_drawn (x y : Reg) (n : Rows) (s : State) (hx : x ≠ 0xF) (hy : y ≠ 0xF) (r c : Nat) (px : Fin 64) (py : Fin 32) :
    IsTarget x y (drawn x y n s) r c px py ↔ IsTarget x y s r c px py := by
  have keeps := keepsRegsBut_drawn x y n s
  rw [IsTarget, keeps x (by simpa using hx), keeps y (by simpa using hy)]
  rfl

/-- A second draw flips back what the first flipped (R61). -/
theorem pixel_drawn_twice (x y : Reg) (n : Rows) (s : State) (hx : x ≠ 0xF) (hy : y ≠ 0xF) (px : Fin 64) (py : Fin 32) :
    pixel (drawn x y n (drawn x y n s)).fb px py = pixel s.fb px py := by
  by_cases h : ∃ r c, r < n.toNat ∧ c < 8 ∧ IsTarget x y s r c px py
  · obtain ⟨r, c, hr, hc, htarget⟩ := h
    rw [pixel_drawn_target x y n _ r c px py hr hc ((isTarget_drawn x y n s hx hy r c px py).2 htarget),
      pixel_drawn_target x y n s r c px py hr hc htarget]
    show ((pixel s.fb px py ^^ (s.mem.read (s.i.toNat + r)).getLsbD (7 - c)) ^^ (s.mem.read (s.i.toNat + r)).getLsbD (7 - c)) = _
    rw [Bool.xor_assoc, Bool.xor_self, Bool.xor_false]
  · have hother (r c : Nat) (hr : r < n.toNat) (hc : c < 8) : ¬ IsTarget x y s r c px py := fun ht => h ⟨r, c, hr, hc, ht⟩
    rw [pixel_drawn_other x y n _ px py fun r c hr hc => (isTarget_drawn x y n s hx hy r c px py).not.2 (hother r c hr hc),
      pixel_drawn_other x y n s px py hother]

/-- A set bit that met no pixel in the first draw meets its own in the second. -/
theorem hit_drawn_twice (x y : Reg) (n : Rows) (s : State) (hx : x ≠ 0xF) (hy : y ≠ 0xF) (hfirst : (drawSprite x y n s).hit = false)
    (r c : Nat) (hr : r < n.toNat) (hc : c < 8) (hbit : (s.mem.read (s.i.toNat + r)).getLsbD (7 - c) = true) :
    (drawSprite x y n (drawn x y n s)).hit = true := by
  obtain ⟨px, py, htarget⟩ := exists_target x y s r c
  have hblank : pixel s.fb px py = false := by
    rw [← Bool.not_eq_true]
    intro hp
    have := (hit_drawSprite x y n s).2 ⟨r, c, px, py, hr, hc, htarget, hbit, hp⟩
    simp [hfirst] at this
  refine (hit_drawSprite x y n _).2 ⟨r, c, px, py, hr, hc, (isTarget_drawn x y n s hx hy r c px py).2 htarget, hbit, ?_⟩
  rw [pixel_drawn_target x y n s r c px py hr hc htarget, hblank, hbit]
  rfl

end Sys2Proof.Machine

open Sys2Proof Sys2Proof.Machine

/-- Settles O29: the rows lie apart and the bits of a row too, so each target is flipped by its own bit and meets the pixel of before. -/
theorem drawSpriteXorsTheWrappedBits : Obligations.DrawSpriteXorsTheWrappedBits := by
  unfold Obligations.DrawSpriteXorsTheWrappedBits
  refine ⟨encodes_drw, fun x y n s h => ⟨drawn x y n s, exec_drw_of_inRange x y n s h, ?_, ?_, ?_, ?_, rfl, pcPlus_advance _,
    keepsRegsBut_drawn x y n s, rfl, keepsMemory_of_eq rfl, ⟨rfl, rfl⟩, ⟨rfl, rfl⟩, ⟨rfl, rfl, rfl, rfl, rfl⟩, rfl⟩⟩
  · exact fun r c px py hr hc hpx hpy => pixel_drawn_target x y n s r c px py hr hc ⟨hpx, hpy⟩
  · exact fun px py hother => pixel_drawn_other x y n s px py hother
  · rintro ⟨r, c, px, py, hr, hc, hpx, hpy, hbit, hp⟩
    exact vf_drawn_of_hit x y n s ((hit_drawSprite x y n s).2 ⟨r, c, px, py, hr, hc, ⟨hpx, hpy⟩, hbit, hp⟩)
  · intro hmiss
    rw [vf_drawn_eq_zero_iff, ← Bool.not_eq_true, hit_drawSprite]
    rintro ⟨r, c, px, py, hr, hc, ⟨hpx, hpy⟩, hbit, hp⟩
    simp [hmiss r c px py hr hc hpx hpy hbit] at hp

/-- Settles O30: the range check of N bytes fails before any pixel changes. -/
theorem drawOutsideMemoryFaults : Obligations.DrawOutsideMemoryFaults := by
  unfold Obligations.DrawOutsideMemoryFaults
  exact fun x y n s hn h => exec_of_outOfRange (.drw x y n) s n.toNat rfl ((rows_ne_zero_iff n).2 hn) h

/-- Settles O31: the second draw has the targets and the sprite of the first. -/
theorem drawingTwiceRestoresThePixels : Obligations.DrawingTwiceRestoresThePixels := by
  unfold Obligations.DrawingTwiceRestoresThePixels
  intro x y n s hx hy h
  refine ⟨drawn x y n s, drawn x y n (drawn x y n s), exec_drw_of_inRange x y n s h, exec_drw_of_inRange x y n _ h,
    pixel_drawn_twice x y n s hx hy, ?_⟩
  rintro hfirst ⟨r, c, hr, hc, hbit⟩
  exact vf_drawn_of_hit x y n _ (hit_drawn_twice x y n s hx hy ((vf_drawn_eq_zero_iff x y n s).1 hfirst) r c hr hc hbit)
end
